-- ==== Sys2Proof/Word.lean ====
section
/-! DEFINITION. The word types of the block, one width each (spec/00_scope.md rules R6, R7, R10; spec/30_encoding.md
rule R55). Every one is read as an unsigned integer (rule R12), bit 0 the least significant (rule R11). -/

namespace Sys2Proof

/-- A byte: the header byte, an element of BUF or of PAY, an operand of VALIDATE (rule R7). -/
abbrev Byte := BitVec 8

/-- A sequence number, `SEQ_W = 5` bits (rule R6). -/
abbrev SeqNum := BitVec 5

/-- A length on a port, `LEN_W = 16` bits (rule R10): `buf_len`, `pkt_len`. -/
abbrev Len := BitVec 16

/-- The request word `REQ[31:0]` (rule R55). -/
abbrev ReqWord := BitVec 32

end Sys2Proof
end

