-- ==== Sys2Proof/Config.lean ====
section
/-! DEFINITION. What is fixed when the block is built (spec/00_scope.md rules R6, R8, R9). -/

namespace Sys2Proof

/-- `MOD = 32 = 2^SEQ_W`, fixed by the source (rule R6). -/
def seqModulus : Nat := 32

/-- `HDR_MIN = 1`, fixed by the source (rule R9). -/
def hdrMin : Nat := 1

/-- The one parameter of the block, the payload capacity `CAP`, with the bounds of rule R8. The spec leaves its number
open and has a model take it as an argument (decision D7), so every statement that speaks of a state speaks of every
capacity in these bounds. -/
structure Config where
  /-- `CAP`: the fixed maximum number of payload bytes a parsed record can hold -/
  cap : Nat
  cap_ge : 5 ≤ cap
  cap_le : cap ≤ 65533
deriving DecidableEq, Repr

/-- `CAP = 16`, the test configuration of spec/95_test_vectors.md. DESIGN CHOICE (notes/assumptions/1.md): only the reset
state and the tests use it; it is not a value of the source. -/
def Config.testConfiguration : Config := ⟨16, by decide, by decide⟩

end Sys2Proof
end

