-- ==== Sys2Proof/Syntax.lean ====
section
/-! DEFINITION. The operations of the block, the requests the host presents, and the assembler's lines
(spec/30_encoding.md sections 4 to 6). -/

namespace Sys2Proof

/-- One constructor per row of spec/opcode_table.json, the operands with the widths of spec/10_state.md rule R16. -/
inductive Instr where
  /-- EXTRACT (unit SNE, format X, rule R56): the header byte -/
  | extract (hdr : Byte)
  /-- VALIDATE (unit SV, format V, rule R57): the previous and the current sequence number -/
  | validate (prev cur : Byte)
  /-- PARSE (unit PFP, format P, rule R58): is a buffer presented, and the length of the frame in BUF -/
  | parse (bufPresent : BitVec 1) (bufLen : Len)
deriving DecidableEq, Repr

/-- What the host presents for one transaction: the request word and, beside it, what it puts in BUF
(spec/30_encoding.md rule R55). -/
structure Request where
  /-- `REQ[31:0]` -/
  word : ReqWord
  /-- the bytes the host puts in BUF from index 0, or none where it leaves BUF as it stands (rule R63's directive) -/
  bufBytes : Option (List Byte)
deriving DecidableEq, Repr

/-- A line of the assembler of spec/30_encoding.md rule R63: three request lines, whose operands are numerals, and the
directive that states the contents of BUF for the next PARSE. -/
inductive AsmLine where
  | extract (hdr : Nat)
  | validate (prev cur : Nat)
  | parse (bufPresent bufLen : Nat)
  | buf (bytes : List Nat)
deriving DecidableEq, Repr

end Sys2Proof
end

