-- ==== Sys2Proof/WellFormed.lean ====
section
/-! DEFINITION. The checks the spec puts on what the host writes and presents. An `Instr` needs none: its operand types
are exactly the field widths, and every value of every field is legal (spec/30_encoding.md rule R60). -/

namespace Sys2Proof

/-- The numeral ranges of spec/30_encoding.md rule R63. -/
def AsmLine.wellFormed : AsmLine → Bool
  | .extract hdr => decide (hdr ≤ 255)
  | .validate prev cur => decide (prev ≤ 255) && decide (cur ≤ 255)
  | .parse bufPresent bufLen => decide (bufPresent ≤ 1) && decide (bufLen ≤ 65535)
  | .buf bytes => bytes.all fun b => decide (b ≤ 255)

/-- A request word the host may issue: its `op` field, bits 31:30, is not the reserved `0b11` (rule R60). -/
def ReqWord.legal (w : ReqWord) : Bool := w.toNat / 2 ^ 30 != 3

/-- The host's duty of spec/70_reset_and_hazards.md rule R105, where PARSE reads BUF at all (spec/20_memory.md rule R31):
the bytes the host presents cover the indices `0 .. buf_len - 1`. -/
def Instr.suppliedBy (cfg : Config) (bufBytes : Option (List Byte)) : Instr → Bool
  | .extract _ => true
  | .validate _ _ => true
  | .parse bufPresent bufLen =>
    bufPresent == 0#1 || decide (cfg.cap + 1 < bufLen.toNat) || decide (bufLen.toNat ≤ (bufBytes.getD []).length)

end Sys2Proof
end

