-- ==== Sys2Proof/Decode.lean ====
section
/-! DEFINITION. Decoding of the request word, the encoder, and the assembler (spec/30_encoding.md sections 4 to 6).
The request is one 32-bit word on a port and no memory holds it, so no byte order arises (spec/20_memory.md rule R36). -/

namespace Sys2Proof

/-- Why a word has no instruction. -/
inductive DecodeError where
  /-- `op == 0b11` selects no unit (rule R60) -/
  | reservedOp
deriving DecidableEq, Repr

/-- `op = REQ[31:30]` (rule R55). -/
def opField (w : ReqWord) : BitVec 2 := w.extractLsb' 30 2

/-- `hdr = REQ[7:0]` (format X, rule R56). -/
def hdrField (w : ReqWord) : Byte := w.extractLsb' 0 8

/-- `prev = REQ[15:8]` (format V, rule R57). -/
def prevField (w : ReqWord) : Byte := w.extractLsb' 8 8

/-- `cur = REQ[7:0]` (format V, rule R57). -/
def curField (w : ReqWord) : Byte := w.extractLsb' 0 8

/-- `buf_present = REQ[16]` (format P, rule R58). -/
def bufPresentField (w : ReqWord) : BitVec 1 := w.extractLsb' 16 1

/-- `buf_len = REQ[15:0]` (format P, rule R58). -/
def bufLenField (w : ReqWord) : Len := w.extractLsb' 0 16

/-- Decoding by `op` alone (rule R61). Total on every word: the one reserved value is rejected by name, and the bits no
operand uses are ignored (rule R59). -/
def decode (w : ReqWord) : Except DecodeError Instr :=
  if opField w = 0b00#2 then .ok (.extract (hdrField w))
  else if opField w = 0b01#2 then .ok (.validate (prevField w) (curField w))
  else if opField w = 0b10#2 then .ok (.parse (bufPresentField w) (bufLenField w))
  else .error .reservedOp

/-- The request word of an instruction (rule R63): the fixed bits of its row and each operand moved to its field
(formats X, V and P, rules R56 to R58); the ignored bits are 0. -/
def encode : Instr → ReqWord
  | .extract hdr => 0x00000000#32 ||| hdr.setWidth 32
  | .validate prev cur => 0x40000000#32 ||| (prev.setWidth 32 <<< 8) ||| cur.setWidth 32
  | .parse bufPresent bufLen => 0x80000000#32 ||| (bufPresent.setWidth 32 <<< 16) ||| bufLen.setWidth 32

/-- The `mask` of every row of spec/opcode_table.json (rule R61). -/
def rowMask : ReqWord := 0xC0000000#32

/-- The `match` of an instruction's row of spec/opcode_table.json (rule R61). -/
def Instr.rowMatch : Instr → ReqWord
  | .extract _ => 0x00000000#32
  | .validate _ _ => 0x40000000#32
  | .parse _ _ => 0x80000000#32

/-- The bits of the word that its row's fields use: `op` and the operands, not the letters `x` (rule R61's patterns). -/
def Instr.usedBits : Instr → ReqWord
  | .extract _ => 0xC00000FF#32
  | .validate _ _ => 0xC000FFFF#32
  | .parse _ _ => 0xC001FFFF#32

/-- What the decoder reads from an instruction of spec/opcode_table.json whose bits are `w`; the bits above `nbits` are
0. The table's words are the request word itself, bit 0 the least significant. -/
def decodeTableWord (nbits w : Nat) : Option Instr :=
  match decode (BitVec.ofNat 32 (w % 2 ^ nbits)) with
  | .ok i => some i
  | .error _ => none

/-- The instruction of a request line; none for the directive and for a numeral out of its range (rule R63). -/
def AsmLine.instr? (l : AsmLine) : Option Instr :=
  if l.wellFormed then
    match l with
    | .extract hdr => some (.extract (BitVec.ofNat 8 hdr))
    | .validate prev cur => some (.validate (BitVec.ofNat 8 prev) (BitVec.ofNat 8 cur))
    | .parse bufPresent bufLen => some (.parse (BitVec.ofNat 1 bufPresent) (BitVec.ofNat 16 bufLen))
    | .buf _ => none
  else none

/-- The requests of a program text (rule R63): the directive's bytes go beside the next PARSE. None where a numeral is
out of its range. `pending` holds the bytes of a directive whose PARSE is still to come. -/
def assembleFrom (pending : Option (List Byte)) : List AsmLine → Option (List Request)
  | [] => some []
  | .buf bytes :: ls =>
    if (AsmLine.buf bytes).wellFormed then assembleFrom (some (bytes.map (BitVec.ofNat 8))) ls else none
  | .parse p n :: ls =>
    match (AsmLine.parse p n).instr?, assembleFrom none ls with
    | some i, some qs => some (⟨encode i, pending⟩ :: qs)
    | _, _ => none
  | l :: ls =>
    match l.instr?, assembleFrom pending ls with
    | some i, some qs => some (⟨encode i, none⟩ :: qs)
    | _, _ => none

/-- The requests of a whole program text. -/
def assemble (ls : List AsmLine) : Option (List Request) := assembleFrom none ls

end Sys2Proof
end

