-- ==== Sys2Proof/Machine/State.lean ====
section
/-! DEFINITION. The state of the machine, as plain data. The block itself keeps nothing between transactions
(spec/10_state.md rules R13, R20 to R26): State holds the parameter CAP, the host's side of the interface (the requests
it will present, BUF, the responses it has read) and the reasons a step can stop. -/

namespace Sys2Proof.Machine

/-- A byte space: (index, byte) pairs, the indices strictly rising, no pair holding the byte an unlisted index reads as
(`Memory.wf` in Machine/Ops.lean). Used for BUF and for PAY (spec/20_memory.md rules R29, R33). -/
abbrev Memory := List Host.Cell

/-- The three failure kinds of PARSE (spec/60_exceptions.md rule R85). They are results, not traps (rule R84). -/
inductive ParseError where
  /-- the buffer is absent or its length is 0 (spec/42_parse.md rule R73) -/
  | invalidArgument
  /-- the length is below the header's (rule R74); kept as a kind, reported for no request -/
  | tooShort
  /-- the payload would exceed the capacity (rule R75) -/
  | payloadTooLarge
deriving DecidableEq, Repr

/-- The response fields of PARSE (spec/10_state.md rule R17): the status and the Stream Packet record of rule R18. -/
structure ParseResponse where
  /-- 0 success, else the code of the error kind (spec/30_encoding.md rule R53) -/
  status : BitVec 2
  /-- `pkt_seq`, the record's sequence -/
  pktSeq : SeqNum
  /-- `pkt_len`, the record's payload length -/
  pktLen : Len
  /-- PAY, the record's payload storage (spec/20_memory.md rule R33) -/
  pay : Memory
deriving DecidableEq, Repr

/-- The response of a transaction: the fields of the operation executed and no others (spec/10_state.md rule R17). -/
inductive Response where
  /-- EXTRACT: `seq` -/
  | extract (seq : SeqNum)
  /-- VALIDATE: `valid` -/
  | validate (valid : BitVec 1)
  /-- PARSE: `status`, `pkt_seq`, `pkt_len`, PAY -/
  | parse (r : ParseResponse)
deriving DecidableEq, Repr

/-- The machine between two transactions. -/
structure State where
  /-- CAP, fixed when the block is built; no step writes it (spec/10_state.md rule R23) -/
  cfg : Config
  /-- the requests the host presents, one a transaction, the next first (rule R14; notes/assumptions/2.md) -/
  requests : List Request
  /-- BUF, the host's input buffer, indices `0 .. CAP` (spec/20_memory.md rules R29, R31) -/
  buf : Memory
  /-- the responses the host has read, the newest last (rules R15, R28; notes/assumptions/3.md) -/
  responses : List Response
deriving DecidableEq, Repr

/-- Accesses the spec says cannot exist. No step raises one; the block has no fault of its own (spec/60_exceptions.md
rule R84). -/
inductive Fault where
  /-- raised by `memRead` at an index of BUF above CAP, which does not exist (spec/20_memory.md rule R31); safe -/
  | bufIndexOutside
  /-- raised by `memWrite` at an index of PAY above CAP - 1, which does not exist (rule R33); safe -/
  | payIndexOutside
deriving DecidableEq, Repr

/-- Why there is no step. -/
inductive Refusal where
  /-- an arm of `exec` with no meaning yet; no arm is one; safe -/
  | notModelled (mnemonic : String)
  /-- raised by `step`: the word's `op` is the reserved `0b11`, for which the block defines no response
  (spec/30_encoding.md rule R60, spec/93_implementation_defined.md U7); safe -/
  | reservedOp
  /-- raised by `step`: the host presents no request, and the block has no step of its own (spec/10_state.md rule R14;
  notes/assumptions/4.md); safe -/
  | noRequest
deriving DecidableEq, Repr

/-- The machine right after reset, for a block built with the capacity of `cfg`. There is nothing to initialise
(spec/10_state.md rule R27, spec/70_reset_and_hazards.md rule R99): no request is presented yet and no response read.
DESIGN CHOICE (notes/assumptions/5.md): BUF, which is the host's, is all zero. -/
def State.resetWith (cfg : Config) : State :=
  { cfg := cfg, requests := [], buf := [], responses := [] }

/-- The reset state. DESIGN CHOICE (notes/assumptions/1.md): of a block with the spec's test configuration, CAP = 16. -/
def State.reset : State := State.resetWith Config.testConfiguration

end Sys2Proof.Machine
end

