-- ==== Sys2Proof/Machine/Flags.lean ====
section
/-! DEFINITION. The result codes. The block has no flags and no condition codes (spec/10_state.md rule R22): what other
machines keep in flags, VALIDATE and PARSE return in a response field. -/

namespace Sys2Proof.Machine

/-- The one-bit `valid` field: 1 for true, 0 for false (spec/30_encoding.md rule R54). -/
def validBit (b : Bool) : BitVec 1 := if b then 1#1 else 0#1

/-- `status` of a success (spec/30_encoding.md rule R53). -/
def statusSuccess : BitVec 2 := 0b00#2

/-- `code(E)`: the `status` of each failure kind (rule R53). -/
def ParseError.code : ParseError → BitVec 2
  | .invalidArgument => 0b01#2
  | .tooShort => 0b10#2
  | .payloadTooLarge => 0b11#2

end Sys2Proof.Machine
end

