-- ==== Sys2Proof/Machine/Operands.lean ====
section
/-! DEFINITION. How the units read their operands. -/

namespace Sys2Proof.Machine

/-- `v[4:0]`: the sequence number in the low 5 bits of a byte; bits 7:5 are ignored. It is EXTRACT's function
(spec/40_extract.md rule R66), VALIDATE's mask of both operands (spec/41_validate.md rule R69) and PARSE's reading of
the header byte (spec/42_parse.md rule R76). -/
def seqField (v : Byte) : SeqNum := v.extractLsb' 0 5

/-- `nxt <- (zext_6(p) + 1) mod 32` (spec/41_validate.md rule R68). -/
def nextSeq (p : SeqNum) : SeqNum := BitVec.ofNat 5 ((p.toNat + 1) % seqModulus)

/-- `buf_len - 1`, the number of bytes after the header (spec/42_parse.md rules R75, R76), computed where
`buf_len >= 1` (rule R81). -/
def payloadBytes (bufLen : Len) : Nat := bufLen.toNat - 1

end Sys2Proof.Machine
end

