-- ==== Sys2Proof/Machine/Ops.lean ====
section
/-! DEFINITION. The named operations over the byte spaces and the state: MemRead, MemWrite, the two loops of PARSE,
`raise`, and the two halves of a transaction (taking the request, giving the response). -/

namespace Sys2Proof.Machine

/-! ## A byte space -/

/-- What an unlisted index reads as. For PAY it is the byte of the unused capacity (spec/42_parse.md rule R77); for BUF
it is what BUF holds where the host put nothing: DESIGN CHOICE (notes/assumptions/5.md). -/
def Memory.unlisted : Byte := 0x00#8

/-- The byte at an index. -/
def Memory.read : Memory → Nat → Byte
  | [], _ => Memory.unlisted
  | c :: m, a => if c.1 = a then c.2 else Memory.read m a

/-- The space with the byte at index `a` set to `v`, in canonical form. -/
def Memory.write : Memory → Nat → Byte → Memory
  | [], a, v => if v = Memory.unlisted then [] else [(a, v)]
  | c :: m, a, v =>
    if a < c.1 then (if v = Memory.unlisted then c :: m else (a, v) :: c :: m)
    else if a = c.1 then (if v = Memory.unlisted then m else (a, v) :: m)
    else c :: Memory.write m a v

/-- The canonical form: indices strictly rising, no listed byte equal to what an unlisted index reads as. -/
abbrev Memory.wf (m : Memory) : Prop :=
  m.Pairwise (fun c d => c.1 < d.1) ∧ ∀ c ∈ m, c.2 ≠ Memory.unlisted

/-- Every listed index is below `n`: the space has the elements `0 .. n - 1`. -/
abbrev Memory.within (m : Memory) (n : Nat) : Prop := ∀ c ∈ m, c.1 < n

/-! ## BUF and PAY -/

/-- The number of elements of BUF, `CAP + 1` (spec/20_memory.md rule R31). -/
def bufElements (cfg : Config) : Nat := cfg.cap + 1

/-- `MemRead(i, 1)`: the byte at index `i` of BUF (spec/20_memory.md rules R29, R31). -/
def memRead (cfg : Config) (buf : Memory) (i : Nat) : Except Fault Byte :=
  if i < bufElements cfg then .ok (buf.read i) else .error .bufIndexOutside

/-- `MemWrite(j, 1, v)`: sets element `j` of PAY, which has `CAP` elements (spec/20_memory.md rule R33). -/
def memWrite (cfg : Config) (pay : Memory) (j : Nat) (v : Byte) : Except Fault Memory :=
  if j < cfg.cap then .ok (pay.write j v) else .error .payIndexOutside

/-- PAY as a PARSE finds it. What it lists does not matter: PARSE gives every element a value (spec/10_state.md rule R19;
notes/assumptions/9.md). -/
def freshPay : Memory := []

/-- `for j in j .. j + n - 1: MemWrite(j, 1, MemRead(j + 1, 1))` (spec/42_parse.md rule R76). -/
def copyPayload (cfg : Config) (buf : Memory) : Nat → Nat → Memory → Except Fault Memory
  | 0, _, pay => .ok pay
  | n + 1, j, pay => do
    let v ← memRead cfg buf (j + 1)
    let pay ← memWrite cfg pay j v
    copyPayload cfg buf n (j + 1) pay

/-- `for j in j .. j + n - 1: MemWrite(j, 1, 0x00)` (spec/42_parse.md rules R77, R78). -/
def clearPayload (cfg : Config) : Nat → Nat → Memory → Except Fault Memory
  | 0, _, pay => .ok pay
  | n + 1, j, pay => do
    let pay ← memWrite cfg pay j 0x00#8
    clearPayload cfg n (j + 1) pay

/-- `raise E`: the error response (spec/42_parse.md rule R78), which is the whole effect of an error
(spec/60_exceptions.md rules R84, R89): the code, a zero record, every element of PAY zero. -/
def raise (cfg : Config) (pay : Memory) (e : ParseError) : Except Fault ParseResponse := do
  let pay ← clearPayload cfg cfg.cap 0 pay
  .ok { status := e.code, pktSeq := 0#5, pktLen := 0#16, pay := pay }

/-! ## A transaction -/

/-- The host puts bytes in BUF from index `j` on. BUF has `CAP + 1` elements, so what does not fit is not part of it
(spec/20_memory.md rule R31; notes/assumptions/6.md); elements the host does not fill stand as they are (notes/assumptions/7.md). -/
def fillBuf (cfg : Config) : List Byte → Nat → Memory → Memory
  | [], _, buf => buf
  | b :: bs, j, buf => if j < bufElements cfg then fillBuf cfg bs (j + 1) (buf.write j b) else buf

/-- BUF as a request finds it. -/
def bufFor (cfg : Config) (buf : Memory) : Option (List Byte) → Memory
  | none => buf
  | some bytes => fillBuf cfg bytes 0 buf

/-- The host presents `q`, with `rest` still to come: BUF holds what the host put beside the word (spec/30_encoding.md
rule R55), for the whole transaction (spec/70_reset_and_hazards.md rule R102). -/
def State.present (s : State) (q : Request) (rest : List Request) : State :=
  { s with requests := rest, buf := bufFor s.cfg s.buf q.bufBytes }

/-- The block gives its response and the host reads it (spec/10_state.md rule R15). Nothing else changes: no operation
has a side effect (rules R13, R22). -/
def State.respond (s : State) (r : Response) : State :=
  { s with responses := s.responses ++ [r] }

/-- Takes the next request: its instruction, and the state in which the instruction runs. -/
def fetch (s : State) : Except Refusal (Instr × State) :=
  match s.requests with
  | [] => .error .noRequest
  | q :: rest =>
    match decode q.word with
    | .error .reservedOp => .error .reservedOp
    | .ok i => .ok (i, s.present q rest)

end Sys2Proof.Machine
end

