-- ==== Sys2Proof/Machine/Extract.lean ====
section
/-! DEFINITION. EXTRACT, unit SNE (spec/40_extract.md). -/

namespace Sys2Proof.Machine

/-- `RSP.seq <- hdr[4:0]` (rule R66). Total, no error, no side effect. -/
def execExtract (hdr : Byte) (s : State) : Host.Outcome State Fault Refusal :=
  .next (s.respond (.extract (seqField hdr)))

end Sys2Proof.Machine
end

