-- ==== Sys2Proof/Machine/Parse.lean ====
section
/-! DEFINITION. PARSE, unit PFP (spec/42_parse.md). -/

namespace Sys2Proof.Machine

/-- The success path (rules R76, R77): the header byte's sequence number, the payload length, the payload copied to the
left of PAY and the rest of PAY zero. -/
def parseFrame (cfg : Config) (buf pay : Memory) (bufLen : Len) : Except Fault ParseResponse := do
  let hdr ← memRead cfg buf 0
  let pay ← copyPayload cfg buf (payloadBytes bufLen) 0 pay
  let pay ← clearPayload cfg (cfg.cap - payloadBytes bufLen) (payloadBytes bufLen) pay
  .ok { status := statusSuccess, pktSeq := seqField hdr, pktLen := bufLen - 1#16, pay := pay }

/-- The unit: the conditions of rules R73, R74 and R75 tested in that order, the first that holds reported (rule R72),
else the success path. `pay` is PAY as the transaction finds it. -/
def parseUnit (cfg : Config) (buf pay : Memory) (bufPresent : BitVec 1) (bufLen : Len) : Except Fault ParseResponse :=
  if bufPresent = 0#1 ∨ bufLen = 0#16 then raise cfg pay .invalidArgument
  else if bufLen.toNat < hdrMin then raise cfg pay .tooShort
  else if payloadBytes bufLen > cfg.cap then raise cfg pay .payloadTooLarge
  else parseFrame cfg buf pay bufLen

/-- PARSE: the unit's response, and no other effect (rule R80). -/
def execParse (bufPresent : BitVec 1) (bufLen : Len) (s : State) : Host.Outcome State Fault Refusal :=
  match parseUnit s.cfg s.buf freshPay bufPresent bufLen with
  | .ok r => .next (s.respond (.parse r))
  | .error f => .fault f

end Sys2Proof.Machine
end

