-- ==== Sys2Proof/Machine/Validate.lean ====
section
/-! DEFINITION. VALIDATE, unit SV (spec/41_validate.md). -/

namespace Sys2Proof.Machine

/-- `RSP.valid <- (c == nxt)` with both operands masked to 5 bits (rules R68, R69). A pure predicate: it never rejects
and remembers nothing (rule R71). -/
def execValidate (prev cur : Byte) (s : State) : Host.Outcome State Fault Refusal :=
  .next (s.respond (.validate (validBit (seqField cur == nextSeq (seqField prev)))))

end Sys2Proof.Machine
end

