-- ==== Sys2Proof/Machine/Dispatch.lean ====
section
/-! DEFINITION. One arm per operation of spec/opcode_table.json. -/

namespace Sys2Proof.Machine

def exec (i : Instr) (s : State) : Host.Outcome State Fault Refusal :=
  match i with
  | .extract hdr => Sys2Proof.Machine.execExtract hdr s
  | .validate prev cur => Sys2Proof.Machine.execValidate prev cur s
  | .parse bufPresent bufLen => Sys2Proof.Machine.execParse bufPresent bufLen s

end Sys2Proof.Machine
end

