-- ==== Sys2Proof/Machine/Step.lean ====
section
/-! DEFINITION. One step is one transaction: the host presents its next request, the block answers it
(spec/10_state.md rules R14, R15). -/

namespace Sys2Proof.Machine

/-- Takes the next request and runs its operation. -/
def step (s : State) : Host.Outcome State Fault Refusal :=
  match fetch s with
  | .error r => .refused r
  | .ok (i, s') => exec i s'

/-- The request word `w` presented before all others, BUF left as it stands (notes/assumptions/15.md): the very next step answers
it. -/
def State.withFetchWord (s : State) (nbits w : Nat) : State :=
  { s with requests := ⟨BitVec.ofNat 32 (w % 2 ^ nbits), none⟩ :: s.requests }

end Sys2Proof.Machine
end

