-- ==== Sys2Proof/Laws/Memory.lean ====
section
/-! SUPPORT. The laws of a byte space: reading after writing, the canonical form, the range of the listed indices, and
that canonical spaces with equal bytes are equal data. -/

namespace Sys2Proof.Machine

theorem Memory.unlisted_eq : Memory.unlisted = 0x00#8 := rfl

@[simp] theorem Memory.read_nil (a : Nat) : Memory.read [] a = 0x00#8 := rfl

theorem Memory.read_cons (c : Host.Cell) (m : Memory) (a : Nat) :
    Memory.read (c :: m) a = if c.1 = a then c.2 else Memory.read m a := rfl

/-- An index that no pair lists reads as an unlisted one. -/
theorem Memory.read_of_not_listed {m : Memory} {a : Nat} (h : ∀ c ∈ m, c.1 ≠ a) : m.read a = 0x00#8 := by
  induction m with
  | nil => rfl
  | cons c m ih =>
    rw [Memory.read_cons, if_neg (h c (by simp))]
    exact ih fun d hd => h d (by simp [hd])

theorem Memory.read_eq_zero_of_within {m : Memory} {n a : Nat} (h : m.within n) (ha : n ≤ a) : m.read a = 0x00#8 :=
  Memory.read_of_not_listed fun c hc => by have := h c hc; omega

theorem Memory.wf_nil : Memory.wf [] := by simp [Memory.wf]

theorem Memory.wf_tail {c : Host.Cell} {m : Memory} (h : Memory.wf (c :: m)) : m.wf :=
  ⟨(List.pairwise_cons.1 h.1).2, fun d hd => h.2 d (by simp [hd])⟩

theorem Memory.read_write_same {m : Memory} (h : m.wf) (a : Nat) (v : Byte) : (m.write a v).read a = v := by
  induction m with
  | nil =>
    rw [Memory.write]; split <;> simp_all [Memory.read, Memory.unlisted_eq]
  | cons c m ih =>
    have hlt := (List.pairwise_cons.1 h.1).1
    have above : ∀ d ∈ m, a < c.1 ∨ a = c.1 → d.1 ≠ a := fun d hd h' => by have := hlt d hd; omega
    rw [Memory.write]
    split
    · split
      · rw [Memory.read_cons, if_neg (by omega)]
        simpa [*, Memory.unlisted] using Memory.read_of_not_listed fun d hd => above d hd (by omega)
      · simp [Memory.read_cons]
    · split
      · split
        · simpa [*, Memory.unlisted] using Memory.read_of_not_listed fun d hd => above d hd (by omega)
        · simp [Memory.read_cons]
      · rw [Memory.read_cons, if_neg (by omega)]
        exact ih (Memory.wf_tail h)

theorem Memory.read_write_other (m : Memory) {a b : Nat} (v : Byte) (hab : b ≠ a) : (m.write a v).read b = m.read b := by
  induction m with
  | nil => rw [Memory.write]; split <;> simp [Memory.read, hab.symm]
  | cons c m ih =>
    rw [Memory.write]
    split
    · split
      · rfl
      · rw [Memory.read_cons, if_neg (by simpa using hab.symm)]
    · split
      · rename_i _ hac
        split
        · rw [Memory.read_cons, if_neg (by omega)]
        · rw [Memory.read_cons, Memory.read_cons, if_neg (by simpa using hab.symm), if_neg (by omega)]
      · rw [Memory.read_cons, Memory.read_cons, ih]

theorem Memory.read_write {m : Memory} (h : m.wf) (a b : Nat) (v : Byte) :
    (m.write a v).read b = if b = a then v else m.read b := by
  split
  · subst b; exact Memory.read_write_same h a v
  · exact Memory.read_write_other m v ‹_›

/-- Every pair of the written space is a pair of the old one or the written one. -/
theorem Memory.mem_write {m : Memory} {a : Nat} {v : Byte} {c : Host.Cell} (h : c ∈ m.write a v) :
    c ∈ m ∨ (c = (a, v) ∧ v ≠ Memory.unlisted) := by
  induction m with
  | nil =>
    rw [Memory.write] at h
    split at h <;> simp_all
  | cons d m ih =>
    rw [Memory.write] at h
    split at h
    · split at h
      · exact .inl h
      · simp only [List.mem_cons] at h ⊢; tauto
    · split at h
      · split at h
        · exact .inl (by simp [h])
        · simp only [List.mem_cons] at h ⊢; tauto
      · rcases List.mem_cons.1 h with rfl | h
        · simp
        · rcases ih h with h | h
          · exact .inl (by simp [h])
          · exact .inr h

/-- A write keeps the canonical form. -/
theorem Memory.wf_write {m : Memory} (h : m.wf) (a : Nat) (v : Byte) : (m.write a v).wf := by
  refine ⟨?_, fun c hc => ?_⟩
  · induction m with
    | nil => rw [Memory.write]; split <;> simp
    | cons c m ih =>
      obtain ⟨hlt, hm⟩ := List.pairwise_cons.1 h.1
      rw [Memory.write]
      split
      · split
        · exact h.1
        · refine List.pairwise_cons.2 ⟨fun d hd => ?_, h.1⟩
          rcases List.mem_cons.1 hd with rfl | hd
          · assumption
          · have := hlt d hd; simp only; omega
      · split
        · split
          · exact hm
          · exact List.pairwise_cons.2 ⟨fun d hd => by have := hlt d hd; simp only; omega, hm⟩
        · refine List.pairwise_cons.2 ⟨fun d hd => ?_, ih (Memory.wf_tail h)⟩
          rcases Memory.mem_write hd with hd | ⟨rfl, -⟩
          · exact hlt d hd
          · simp only; omega
  · rcases Memory.mem_write hc with hc | ⟨rfl, hv⟩
    · exact h.2 c hc
    · exact hv

theorem Memory.within_write {m : Memory} {n a : Nat} (h : m.within n) (ha : a < n) (v : Byte) :
    (m.write a v).within n := fun c hc => by
  rcases Memory.mem_write hc with hc | ⟨rfl, -⟩
  · exact h c hc
  · exact ha

/-- A listed pair of a canonical space is what its index reads as. -/
theorem Memory.read_listed {m : Memory} (h : m.wf) {c : Host.Cell} (hc : c ∈ m) : m.read c.1 = c.2 := by
  induction m with
  | nil => simp at hc
  | cons d m ih =>
    rw [Memory.read_cons]
    rcases List.mem_cons.1 hc with rfl | hc
    · simp
    · have := (List.pairwise_cons.1 h.1).1 c hc
      rw [if_neg (by omega)]
      exact ih (Memory.wf_tail h) hc

/-- Canonical spaces with equal bytes are equal data. -/
theorem Memory.ext_read {m m' : Memory} (h : m.wf) (h' : m'.wf) (heq : ∀ a, m.read a = m'.read a) : m = m' := by
  have sub : ∀ {x y : Memory}, x.wf → y.wf → (∀ a, x.read a = y.read a) → ∀ c ∈ x, c ∈ y := by
    intro x y hx hy hxy c hc
    have hv : y.read c.1 = c.2 := (hxy c.1).symm.trans (Memory.read_listed hx hc)
    by_contra hn
    by_cases hl : ∃ d ∈ y, d.1 = c.1
    · obtain ⟨d, hd, hdc⟩ := hl
      have hd2 : d.2 = c.2 := by rw [← Memory.read_listed hy hd, hdc, hv]
      exact hn (by rwa [← Prod.ext hdc hd2])
    · push Not at hl
      exact hx.2 c hc (hv.symm.trans (Memory.read_of_not_listed hl))
  have sorted : ∀ {x : Memory}, x.wf → x.Pairwise (fun c d : Host.Cell => c.1 < d.1) := fun hx => hx.1
  have nodup : ∀ {x : Memory}, x.wf → x.Nodup := fun hx =>
    (sorted hx).imp fun {a b} hab => by rintro rfl; omega
  have perm : m.Perm m' := (List.perm_ext_iff_of_nodup (nodup h) (nodup h')).2 fun c =>
    ⟨sub h h' heq c, sub h' h (fun a => (heq a).symm) c⟩
  exact perm.eq_of_pairwise (fun a b _ _ hab hba => absurd hab (by omega)) (sorted h) (sorted h')

end Sys2Proof.Machine
end

