-- ==== Sys2Proof/Laws/State.lean ====
section
/-! SUPPORT. One lemma per field per update of State, so that no later proof unfolds a record update. -/

namespace Sys2Proof.Machine

@[simp] theorem State.respond_cfg (s : State) (r : Response) : (s.respond r).cfg = s.cfg := rfl
@[simp] theorem State.respond_requests (s : State) (r : Response) : (s.respond r).requests = s.requests := rfl
@[simp] theorem State.respond_buf (s : State) (r : Response) : (s.respond r).buf = s.buf := rfl
@[simp] theorem State.respond_responses (s : State) (r : Response) :
    (s.respond r).responses = s.responses ++ [r] := rfl

@[simp] theorem State.present_cfg (s : State) (q : Request) (qs : List Request) : (s.present q qs).cfg = s.cfg := rfl
@[simp] theorem State.present_requests (s : State) (q : Request) (qs : List Request) :
    (s.present q qs).requests = qs := rfl
@[simp] theorem State.present_buf (s : State) (q : Request) (qs : List Request) :
    (s.present q qs).buf = bufFor s.cfg s.buf q.bufBytes := rfl
@[simp] theorem State.present_responses (s : State) (q : Request) (qs : List Request) :
    (s.present q qs).responses = s.responses := rfl

@[simp] theorem State.resetWith_cfg (c : Config) : (State.resetWith c).cfg = c := rfl
@[simp] theorem State.resetWith_requests (c : Config) : (State.resetWith c).requests = [] := rfl
@[simp] theorem State.resetWith_buf (c : Config) : (State.resetWith c).buf = [] := rfl
@[simp] theorem State.resetWith_responses (c : Config) : (State.resetWith c).responses = [] := rfl

@[simp] theorem State.withFetchWord_cfg (s : State) (nbits w : Nat) : (s.withFetchWord nbits w).cfg = s.cfg := rfl
@[simp] theorem State.withFetchWord_requests (s : State) (nbits w : Nat) :
    (s.withFetchWord nbits w).requests = ⟨BitVec.ofNat 32 (w % 2 ^ nbits), none⟩ :: s.requests := rfl
@[simp] theorem State.withFetchWord_buf (s : State) (nbits w : Nat) : (s.withFetchWord nbits w).buf = s.buf := rfl
@[simp] theorem State.withFetchWord_responses (s : State) (nbits w : Nat) :
    (s.withFetchWord nbits w).responses = s.responses := rfl

@[simp] theorem bufFor_none (cfg : Config) (buf : Memory) : bufFor cfg buf none = buf := rfl
@[simp] theorem bufFor_some (cfg : Config) (buf : Memory) (bytes : List Byte) :
    bufFor cfg buf (some bytes) = fillBuf cfg bytes 0 buf := rfl

/-- Two responses appended to one state are equal when the states are. -/
theorem State.respond_inj {s : State} {r r' : Response} (h : s.respond r = s.respond r') : r = r' := by
  have := congrArg State.responses h
  simpa using this

end Sys2Proof.Machine
end

