-- ==== Sys2Proof/Laws/Ops.lean ====
section
/-! SUPPORT. One lemma per shared operation that says everything it can do; later proofs cite these and do not unfold
the operations. -/

namespace Sys2Proof.Machine

@[simp] theorem memRead_ok {cfg : Config} {buf : Memory} {i : Nat} (h : i ≤ cfg.cap) :
    memRead cfg buf i = .ok (buf.read i) := by simp [memRead, bufElements, Nat.lt_succ_of_le h]

@[simp] theorem memWrite_ok {cfg : Config} {pay : Memory} {j : Nat} (v : Byte) (h : j < cfg.cap) :
    memWrite cfg pay j v = .ok (pay.write j v) := by simp [memWrite, h]

/-- The zeroing loop inside PAY: it never faults, zeroes its elements and no other. -/
theorem clearPayload_spec {cfg : Config} {n j : Nat} {pay : Memory} (hn : j + n ≤ cfg.cap) (hw : pay.wf)
    (hr : pay.within cfg.cap) :
    ∃ pay', clearPayload cfg n j pay = .ok pay' ∧ pay'.wf ∧ pay'.within cfg.cap ∧
      ∀ k, pay'.read k = if j ≤ k ∧ k < j + n then 0x00#8 else pay.read k := by
  induction n generalizing j pay with
  | zero => exact ⟨pay, rfl, hw, hr, fun k => by rw [if_neg (by omega)]⟩
  | succ n ih =>
    obtain ⟨pay', he, hw', hr', hread⟩ := ih (j := j + 1) (pay := pay.write j 0x00#8) (by omega)
      (Memory.wf_write hw _ _) (Memory.within_write hr (by omega) _)
    refine ⟨pay', ?_, hw', hr', fun k => ?_⟩
    · rw [clearPayload, memWrite_ok _ (by omega)]; exact he
    · rw [hread, Memory.read_write hw]
      split_ifs <;> first | rfl | omega

/-- The copying loop inside PAY and BUF: it never faults, copies its elements in order and changes no other. -/
theorem copyPayload_spec {cfg : Config} {buf : Memory} {n j : Nat} {pay : Memory} (hn : j + n ≤ cfg.cap) (hw : pay.wf)
    (hr : pay.within cfg.cap) :
    ∃ pay', copyPayload cfg buf n j pay = .ok pay' ∧ pay'.wf ∧ pay'.within cfg.cap ∧
      ∀ k, pay'.read k = if j ≤ k ∧ k < j + n then buf.read (k + 1) else pay.read k := by
  induction n generalizing j pay with
  | zero => exact ⟨pay, rfl, hw, hr, fun k => by rw [if_neg (by omega)]⟩
  | succ n ih =>
    obtain ⟨pay', he, hw', hr', hread⟩ := ih (j := j + 1) (pay := pay.write j (buf.read (j + 1))) (by omega)
      (Memory.wf_write hw _ _) (Memory.within_write hr (by omega) _)
    refine ⟨pay', ?_, hw', hr', fun k => ?_⟩
    · rw [copyPayload, memRead_ok (by omega)]
      simp only [bind, Except.bind]
      rw [memWrite_ok _ (by omega)]
      exact he
    · rw [hread, Memory.read_write hw]
      by_cases hk : k = j
      · subst k; rw [if_neg (by omega), if_pos rfl, if_pos (by omega)]
      · rw [if_neg hk]; split_ifs <;> first | rfl | omega

/-- `raise` never faults, and its response is the code beside a zero record. -/
theorem raise_spec {cfg : Config} {pay : Memory} (hw : pay.wf) (hr : pay.within cfg.cap) (e : ParseError) :
    raise cfg pay e = .ok { status := e.code, pktSeq := 0#5, pktLen := 0#16, pay := [] } := by
  obtain ⟨pay', he, hw', hr', hread⟩ := clearPayload_spec (j := 0) (n := cfg.cap) (by omega) hw hr
  have : pay' = [] := Memory.ext_read hw' Memory.wf_nil fun k => by
    rw [hread, Memory.read_nil]
    split_ifs with h
    · rfl
    · exact Memory.read_eq_zero_of_within hr (by omega)
  simp [raise, he, this, bind, Except.bind]

theorem freshPay_wf : freshPay.wf := Memory.wf_nil

theorem freshPay_within (n : Nat) : freshPay.within n := by simp [freshPay, Memory.within]

/-- Filling BUF keeps it a canonical space of its elements. -/
theorem fillBuf_wf {cfg : Config} {bytes : List Byte} {j : Nat} {buf : Memory} (hw : buf.wf)
    (hr : buf.within (cfg.cap + 1)) : (fillBuf cfg bytes j buf).wf ∧ (fillBuf cfg bytes j buf).within (cfg.cap + 1) := by
  induction bytes generalizing j buf with
  | nil => exact ⟨hw, hr⟩
  | cons b bs ih =>
    rw [fillBuf]
    split
    · exact ih (Memory.wf_write hw _ _) (Memory.within_write hr ‹_› _)
    · exact ⟨hw, hr⟩

/-- What BUF holds after the host filled it from index `j` on: the bytes that fit, else what stood there. -/
theorem fillBuf_read {cfg : Config} {bytes : List Byte} {j : Nat} {buf : Memory} (hw : buf.wf) (k : Nat) :
    (fillBuf cfg bytes j buf).read k =
      if j ≤ k ∧ k < j + bytes.length ∧ k ≤ cfg.cap then bytes.getD (k - j) 0x00#8 else buf.read k := by
  induction bytes generalizing j buf with
  | nil => rw [fillBuf, if_neg (by simp; omega)]
  | cons b bs ih =>
    rw [fillBuf]
    split
    · rename_i hj
      rw [ih (Memory.wf_write hw _ _), Memory.read_write hw]
      simp only [bufElements] at hj
      by_cases hk : k = j
      · subst k; rw [if_neg (by omega), if_pos rfl, if_pos (by simp; omega)]; simp
      · rw [if_neg hk]
        by_cases hin : j + 1 ≤ k ∧ k < j + 1 + bs.length ∧ k ≤ cfg.cap
        · rw [if_pos hin, if_pos (by simp; omega), show k - j = (k - (j + 1)) + 1 by omega, List.getD_cons_succ]
        · rw [if_neg hin, if_neg (by simp; omega)]
    · rename_i hj
      simp only [bufElements] at hj
      rw [if_neg (by omega)]

/-- Presenting a request keeps BUF a canonical space of its elements. -/
theorem bufFor_wf {cfg : Config} {buf : Memory} (hw : buf.wf) (hr : buf.within (cfg.cap + 1))
    (bytes : Option (List Byte)) : (bufFor cfg buf bytes).wf ∧ (bufFor cfg buf bytes).within (cfg.cap + 1) := by
  cases bytes with
  | none => exact ⟨hw, hr⟩
  | some bs => exact fillBuf_wf hw hr

/-- Everything `fetch` can do: refuse for want of a request, refuse the reserved word, or take the next request. -/
theorem fetch_cases (s : State) :
    (s.requests = [] ∧ fetch s = .error .noRequest) ∨
    (∃ q rest, s.requests = q :: rest ∧ decode q.word = .error .reservedOp ∧ fetch s = .error .reservedOp) ∨
    (∃ q rest i, s.requests = q :: rest ∧ decode q.word = .ok i ∧ fetch s = .ok (i, s.present q rest)) := by
  unfold fetch
  rcases s.requests with _ | ⟨q, rest⟩
  · exact .inl ⟨rfl, rfl⟩
  · rcases h : decode q.word with e | i
    · cases e; exact .inr (.inl ⟨q, rest, rfl, h, by simp [h]⟩)
    · exact .inr (.inr ⟨q, rest, i, rfl, h, by simp [h]⟩)

end Sys2Proof.Machine
end

