-- ==== Sys2Proof/Laws/Decode.lean ====
section
/-! SUPPORT. Every field of the request word as a number, and what the encoder puts in it. -/

namespace Sys2Proof

theorem opField_toNat (w : ReqWord) : (opField w).toNat = w.toNat / 2 ^ 30 := by
  have := w.isLt
  rw [opField, BitVec.extractLsb'_toNat, Nat.shiftRight_eq_div_pow]; omega

theorem hdrField_toNat (w : ReqWord) : (hdrField w).toNat = w.toNat % 256 := by
  simp [hdrField, BitVec.extractLsb'_toNat]

theorem prevField_toNat (w : ReqWord) : (prevField w).toNat = w.toNat / 256 % 256 := by
  simp [prevField, BitVec.extractLsb'_toNat, Nat.shiftRight_eq_div_pow]

theorem curField_toNat (w : ReqWord) : (curField w).toNat = w.toNat % 256 := by
  simp [curField, BitVec.extractLsb'_toNat]

theorem bufPresentField_toNat (w : ReqWord) : (bufPresentField w).toNat = w.toNat / 65536 % 2 := by
  simp [bufPresentField, BitVec.extractLsb'_toNat, Nat.shiftRight_eq_div_pow]

theorem bufLenField_toNat (w : ReqWord) : (bufLenField w).toNat = w.toNat % 65536 := by
  simp [bufLenField, BitVec.extractLsb'_toNat]

theorem opField_encode_extract (hdr : Byte) : opField (encode (.extract hdr)) = 0b00#2 := by
  ext i hi; interval_cases i <;> simp [opField, encode]

theorem opField_encode_validate (prev cur : Byte) : opField (encode (.validate prev cur)) = 0b01#2 := by
  ext i hi; interval_cases i <;> simp [opField, encode]

theorem opField_encode_parse (p : BitVec 1) (n : Len) : opField (encode (.parse p n)) = 0b10#2 := by
  ext i hi; interval_cases i <;> simp [opField, encode]

end Sys2Proof
end

