-- ==== Sys2Proof/Laws/PerInstr.lean ====
section
/-! SUPPORT. One statement about every instruction as it is written: its word carries the fixed bits of its row of
spec/opcode_table.json and no bit the row leaves unused (spec/30_encoding.md rules R61, R63). -/

namespace Sys2Proof.Laws.OpcodeRow

def Statement (i : Instr) : Prop := encode i &&& rowMask = i.rowMatch ∧ encode i &&& i.usedBits = encode i

theorem extract (hdr : Byte) : Statement (.extract hdr) := by
  constructor <;> (ext i hi; interval_cases i <;> 
      simp [encode, rowMask, Instr.rowMatch, Instr.usedBits])

theorem validate (prev cur : Byte) : Statement (.validate prev cur) := by
  constructor <;> (ext i hi; interval_cases i <;> 
      simp [encode, rowMask, Instr.rowMatch, Instr.usedBits])

theorem parse (bufPresent : BitVec 1) (bufLen : Len) : Statement (.parse bufPresent bufLen) := by
  constructor <;> (ext i hi; interval_cases i <;> 
      simp [encode, rowMask, Instr.rowMatch, Instr.usedBits])

end Sys2Proof.Laws.OpcodeRow
end

