-- ==== Sys2Proof/Safety.lean ====
section
/-! DEFINITION. What the statements about the whole machine are said in: the invariant of the records and spaces, the
response of a request on its own, and what two runs may share. -/

namespace Sys2Proof.Machine

/-- What the spec says of every record in every response (spec/10_state.md rule R18; spec/42_parse.md rules R74, R77, R78):
the length within the capacity, PAY with `CAP` elements and zero beyond the payload, `status` never TooShort's, and
everything zero where `status` is not success. -/
structure ParseResponse.Sound (cfg : Config) (r : ParseResponse) : Prop where
  payWf : r.pay.wf
  payWithin : r.pay.within cfg.cap
  lenWithin : r.pktLen.toNat ≤ cfg.cap
  zeroBeyond : ∀ j, r.pktLen.toNat ≤ j → r.pay.read j = 0x00#8
  neverTooShort : r.status ≠ ParseError.tooShort.code
  errorZero : r.status ≠ statusSuccess → r.pktSeq = 0#5 ∧ r.pktLen = 0#16

/-- A response is sound: only PARSE's holds a record. -/
def Response.Sound (cfg : Config) : Response → Prop
  | .extract _ => True
  | .validate _ => True
  | .parse r => r.Sound cfg

/-- The invariant of the machine: BUF in canonical form with `CAP + 1` elements, every response read so far sound. -/
structure State.Inv (s : State) : Prop where
  bufWf : s.buf.wf
  bufWithin : s.buf.within (s.cfg.cap + 1)
  sound : ∀ r ∈ s.responses, r.Sound s.cfg

/-- The response to `q` presented alone, right after reset, to a block of the capacity of `cfg`. -/
def soloResponse (cfg : Config) (q : Request) : Option Response :=
  match step { State.resetWith cfg with requests := [q] } with
  | .next t => t.responses.getLast?
  | .fault _ => none
  | .refused _ => none

end Sys2Proof.Machine

namespace Sys2Proof

/-- A request the host may issue (spec/30_encoding.md rule R60) with BUF holding the intended bytes
(spec/70_reset_and_hazards.md rule R105): its `op` is not the reserved one, and the bytes PARSE will read stand beside
it. -/
structure Request.Proper (cfg : Config) (q : Request) : Prop where
  legal : ReqWord.legal q.word = true
  supplied : ∀ i, decode q.word = .ok i → i.suppliedBy cfg q.bufBytes = true

end Sys2Proof
end

