-- ==== Sys2Proof/Certificates/Slice0/Obligations.lean ====
section
/-! DEFINITION. The statements about the block, from the numbered rules of spec/. Decisions `Dn` named in a docstring are
the spec's own (spec/92_eei_decisions.md); a log entry is notes/assumptions/n.md. Every statement about a state holds for
every capacity CAP in the bounds of rule R8, since the state carries its `Config`. -/

open Sys2Proof Sys2Proof.Machine

/-! ## Encoding -/

/-- Words written out from spec/30_encoding.md rules R56 to R58 decode to the instruction they stand for, with the
ignored bits clear and set, and the reserved `op` is rejected by name. -/
def Obligations.WrittenOutWordsDecode : Prop :=
  decode 0b00000000000000000000000011100101#32 = .ok (.extract 0xE5#8) ∧
  decode 0b00111111111111111111111111100101#32 = .ok (.extract 0xE5#8) ∧
  decode 0b01000000000000000001111100000000#32 = .ok (.validate 31#8 0#8) ∧
  decode 0b01111111111111110001111100000000#32 = .ok (.validate 31#8 0#8) ∧
  decode 0b10000000000000010000000000000110#32 = .ok (.parse 1#1 6#16) ∧
  decode 0b10111111111111100000000000000110#32 = .ok (.parse 0#1 6#16) ∧
  decode 0b11000000000000000000000000000000#32 = .error .reservedOp ∧
  decode 0b11111111111111111111111111111111#32 = .error .reservedOp

/-- Rules R56, R57, R58: the format is told by bits 31:30 and each operand is the unsigned integer in its field. -/
def Obligations.FieldsOfTheThreeFormats : Prop :=
  ∀ w : ReqWord,
    (w.toNat / 2 ^ 30 = 0 → ∃ hdr : Byte, decode w = .ok (.extract hdr) ∧ hdr.toNat = w.toNat % 2 ^ 8) ∧
    (w.toNat / 2 ^ 30 = 1 → ∃ prev cur : Byte, decode w = .ok (.validate prev cur) ∧
      prev.toNat = w.toNat / 2 ^ 8 % 2 ^ 8 ∧ cur.toNat = w.toNat % 2 ^ 8) ∧
    (w.toNat / 2 ^ 30 = 2 → ∃ (bufPresent : BitVec 1) (bufLen : Len), decode w = .ok (.parse bufPresent bufLen) ∧
      bufPresent.toNat = w.toNat / 2 ^ 16 % 2 ∧ bufLen.toNat = w.toNat % 2 ^ 16)

/-- Rule R60: a request with the reserved `op` has no response and is refused by name; every other word is a legal
request and is answered, whatever the rest of it and the state are. -/
def Obligations.OnlyTheReservedOpIsRefused : Prop :=
  ∀ (s : State) (q : Request) (rest : List Request), s.requests = q :: rest →
    (q.word.toNat / 2 ^ 30 = 3 → step s = .refused .reservedOp) ∧
    (q.word.toNat / 2 ^ 30 ≠ 3 → ∃ t, step s = .next t)

/-- Rule R61 (an inference the spec marks as its own): a word is an operation exactly when its masked bits are the
`match` of that operation's row of spec/opcode_table.json. -/
def Obligations.DecodeAgreesWithOpcodeTable : Prop :=
  ∀ w : ReqWord,
    ((∃ hdr, decode w = .ok (.extract hdr)) ↔ w &&& 0xC0000000#32 = 0x00000000#32) ∧
    ((∃ prev cur, decode w = .ok (.validate prev cur)) ↔ w &&& 0xC0000000#32 = 0x40000000#32) ∧
    ((∃ bufPresent bufLen, decode w = .ok (.parse bufPresent bufLen)) ↔ w &&& 0xC0000000#32 = 0x80000000#32)

/-- Decode and encode agree for every instruction, every operand at every value (rules R56 to R58, R63). -/
def Obligations.DecodeOfEncodeIsTheInstruction : Prop :=
  ∀ i : Instr, decode (encode i) = .ok i

/-- Rule R59: the words of an instruction are exactly those that carry its encoding in the bits its format uses; the
ignored bits are free on input and 0 in the encoding. -/
def Obligations.IgnoredBitsDoNotMatter : Prop :=
  ∀ (w : ReqWord) (i : Instr), decode w = .ok i ↔ w &&& i.usedBits = encode i

/-- Rule R63: the assembler's word of each request line, for numerals in their ranges, and no word outside them. -/
def Obligations.AssemblerWordsAndRanges : Prop :=
  (∀ hdr, (hdr ≤ 255 → ∃ i, (AsmLine.extract hdr).instr? = some i ∧ (encode i).toNat = hdr) ∧
    (255 < hdr → (AsmLine.extract hdr).instr? = none)) ∧
  (∀ prev cur, (prev ≤ 255 ∧ cur ≤ 255 → ∃ i, (AsmLine.validate prev cur).instr? = some i ∧
      (encode i).toNat = 0x40000000 + prev * 2 ^ 8 + cur) ∧
    (255 < prev ∨ 255 < cur → (AsmLine.validate prev cur).instr? = none)) ∧
  (∀ p n, (p ≤ 1 ∧ n ≤ 65535 → ∃ i, (AsmLine.parse p n).instr? = some i ∧
      (encode i).toNat = 0x80000000 + p * 2 ^ 16 + n) ∧
    (1 < p ∨ 65535 < n → (AsmLine.parse p n).instr? = none))

/-! ## The transaction -/

/-- A step runs the decoded instruction: the next request's, in the state in which the host has presented that request.
BUF then holds the bytes beside the word as far as BUF reaches (index CAP), and what stood there elsewhere (log 6, log 7:
the model's choice); nothing else has changed. -/
def Obligations.StepRunsThePresentedRequest : Prop :=
  ∀ (s : State) (q : Request) (rest : List Request) (i : Instr),
    s.requests = q :: rest → decode q.word = .ok i →
    step s = exec i (s.present q rest) ∧
    (s.present q rest).cfg = s.cfg ∧ (s.present q rest).requests = rest ∧
    (s.present q rest).responses = s.responses ∧
    (s.buf.wf → ∀ k, (s.present q rest).buf.read k =
      if k < (q.bufBytes.getD []).length ∧ k ≤ s.cfg.cap then (q.bufBytes.getD []).getD k 0x00#8 else s.buf.read k)

/-- A step that goes on answers exactly one request with exactly one response, and never writes CAP; with no request
presented there is no step (that this is a refusal by name is the model's choice, log 4). -/
def Obligations.OneResponsePerRequest : Prop :=
  (∀ s t : State, step s = .next t → ∃ q rest r, s.requests = q :: rest ∧ t.requests = rest ∧
    t.responses = s.responses ++ [r] ∧ t.cfg = s.cfg) ∧
  (∀ s : State, s.requests = [] → step s = .refused .noRequest)

/-- The bounds of BUF and PAY are never left: no state and no request make a step fault. -/
def Obligations.NoStepFaults : Prop :=
  ∀ (s : State) (f : Fault), step s ≠ .fault f

/-- The frame of all three operations: each completes in every state and gives one response; CAP, the requests still to
come, every byte of BUF and the responses given before are unchanged. -/
def Obligations.OperationsOnlyGiveAResponse : Prop :=
  ∀ (i : Instr) (s : State), ∃ t, exec i s = .next t ∧ t.cfg = s.cfg ∧ t.requests = s.requests ∧
    (∀ a, t.buf.read a = s.buf.read a) ∧ ∃ r, t.responses = s.responses ++ [r]

/-! ## EXTRACT -/

/-- Rule R66: EXTRACT answers `header_byte & 0x1F`, bits 0 to 4, for every byte and in every state, with no error and no
side effect; its encoding is format X. -/
def Obligations.ExtractReturnsLowFiveBits : Prop :=
  (∀ (hdr : Byte) (s : State), ∃ seq : SeqNum, exec (.extract hdr) s = .next (s.respond (.extract seq)) ∧
    seq.toNat = (hdr &&& 0x1F#8).toNat ∧ ∀ k, k < 5 → seq.getLsbD k = hdr.getLsbD k) ∧
  ∀ w : ReqWord, w.toNat / 2 ^ 30 = 0 → decode w = .ok (.extract (BitVec.ofNat 8 (w.toNat % 2 ^ 8)))

/-- Rule R67 (its clauses c and d are inferences the spec marks as its own): the result is `hdr mod 32`, the header bytes
of a result are its eight congruent ones, and EXTRACT of a zero-extended result gives it again. -/
def Obligations.LawsOfExtract : Prop :=
  ∀ (hdr : Byte) (v : SeqNum) (s : State),
    exec (.extract hdr) s = .next (s.respond (.extract (BitVec.ofNat 5 (hdr.toNat % 32)))) ∧
    (exec (.extract hdr) s = .next (s.respond (.extract v)) ↔ ∃ k, k < 8 ∧ hdr.toNat = v.toNat + 32 * k) ∧
    exec (.extract (v.setWidth 8)) s = .next (s.respond (.extract v))

/-! ## VALIDATE -/

/-- Rules R68, R69 (masking both operands is decision D5) and R54: VALIDATE answers 1 exactly when `cur mod 32` is
`prev mod 32 + 1` modulo 32, else 0, for every pair of bytes and in every state, with no error and no side effect; its
encoding is format V. -/
def Obligations.ValidateIsSuccessorModulo32 : Prop :=
  (∀ (prev cur : Byte) (s : State), ∃ valid : BitVec 1,
    exec (.validate prev cur) s = .next (s.respond (.validate valid)) ∧
    (valid = 1#1 ↔ cur.toNat % 32 = (prev.toNat % 32 + 1) % 32) ∧
    (valid = 0#1 ↔ cur.toNat % 32 ≠ (prev.toNat % 32 + 1) % 32)) ∧
  ∀ w : ReqWord, w.toNat / 2 ^ 30 = 1 →
    decode w = .ok (.validate (BitVec.ofNat 8 (w.toNat / 2 ^ 8 % 2 ^ 8)) (BitVec.ofNat 8 (w.toNat % 2 ^ 8)))

/-- Rule R70's laws, but for its counts: no self-transition, the successor valid and nothing else on [0,31]; for each
`prev` one `cur` and for each `cur` one `prev` modulo 32; never both directions. The last three are inferences the spec
marks as its own. -/
def Obligations.LawsOfValidate : Prop :=
  ∀ s : State,
    (∀ a : Byte, exec (.validate a a) s = .next (s.respond (.validate 0#1))) ∧
    (∀ a : Byte, exec (.validate a (BitVec.ofNat 8 ((a.toNat + 1) % 32))) s = .next (s.respond (.validate 1#1))) ∧
    (∀ a b : Byte, a.toNat ≤ 31 → b.toNat ≤ 31 → b.toNat ≠ (a.toNat + 1) % 32 →
      exec (.validate a b) s = .next (s.respond (.validate 0#1))) ∧
    (∀ a b c : Byte, exec (.validate a b) s = .next (s.respond (.validate 1#1)) →
      exec (.validate a c) s = .next (s.respond (.validate 1#1)) → b.toNat % 32 = c.toNat % 32) ∧
    (∀ a b c : Byte, exec (.validate a c) s = .next (s.respond (.validate 1#1)) →
      exec (.validate b c) s = .next (s.respond (.validate 1#1)) → a.toNat % 32 = b.toNat % 32) ∧
    (∀ a b : Byte, exec (.validate a b) s = .next (s.respond (.validate 1#1)) →
      exec (.validate b a) s = .next (s.respond (.validate 0#1)))

/-- spec/41_validate.md's closing inference: VALIDATE of two raw header bytes is VALIDATE of their EXTRACT results. -/
def Obligations.ValidateOfRawHeaderBytes : Prop :=
  ∀ (h1 h2 : Byte) (s : State), ∃ q1 q2 : SeqNum,
    exec (.extract h1) s = .next (s.respond (.extract q1)) ∧
    exec (.extract h2) s = .next (s.respond (.extract q2)) ∧
    exec (.validate h1 h2) s = exec (.validate (q1.setWidth 8) (q2.setWidth 8)) s

/-! ## PARSE -/

/-- Rule R73 (code 1 is decision D10, the zero record D14): an absent buffer or a zero length, either alone, is
InvalidArgument, with the response of rule R78; BUF is not read, so one response serves every state of that capacity. -/
def Obligations.AbsentOrEmptyIsInvalidArgument : Prop :=
  ∀ (bufPresent : BitVec 1) (bufLen : Len) (cfg : Config), bufPresent = 0#1 ∨ bufLen = 0#16 →
    ∃ pay : Memory, (∀ j, j < cfg.cap → pay.read j = 0x00#8) ∧
      ∀ s : State, s.cfg = cfg → exec (.parse bufPresent bufLen) s = .next (s.respond (.parse
        { status := 0b01#2, pktSeq := 0#5, pktLen := 0#16, pay := pay }))

/-- Rule R75 (code 3 is decision D10, the zero record D14): a presented frame whose payload exceeds CAP is
PayloadTooLarge, never truncated, with the response of rule R78; BUF is not read. -/
def Obligations.OversizedPayloadIsRefusedWhole : Prop :=
  ∀ (bufLen : Len) (cfg : Config), bufLen ≠ 0#16 → bufLen.toNat - 1 > cfg.cap →
    ∃ pay : Memory, (∀ j, j < cfg.cap → pay.read j = 0x00#8) ∧
      ∀ s : State, s.cfg = cfg → exec (.parse 1#1 bufLen) s = .next (s.respond (.parse
        { status := 0b11#2, pktSeq := 0#5, pktLen := 0#16, pay := pay }))

/-- Rule R53's table (codes by decision D10; the order of the tests is decision D12): each status is produced exactly
when the table says, and 2, TooShort's, never. -/
def Obligations.StatusTable : Prop :=
  ∀ (bufPresent : BitVec 1) (bufLen : Len) (s : State), ∃ r : ParseResponse,
    exec (.parse bufPresent bufLen) s = .next (s.respond (.parse r)) ∧
    (r.status = 0b00#2 ↔ bufPresent = 1#1 ∧ 1 ≤ bufLen.toNat ∧ bufLen.toNat ≤ s.cfg.cap + 1) ∧
    (r.status = 0b01#2 ↔ bufPresent = 0#1 ∨ bufLen.toNat = 0) ∧
    r.status ≠ 0b10#2 ∧
    (r.status = 0b11#2 ↔ bufPresent = 1#1 ∧ s.cfg.cap + 2 ≤ bufLen.toNat)

/-- Rules R76 and R77 (zeroed unused capacity is decision D13): the record of a frame that is parsed, with the whole next
state. -/
def Obligations.ParseCopiesTheFrame : Prop :=
  ∀ (bufLen : Len) (s : State), 1 ≤ bufLen.toNat → bufLen.toNat ≤ s.cfg.cap + 1 → ∃ r : ParseResponse,
    exec (.parse 1#1 bufLen) s = .next (s.respond (.parse r)) ∧
    r.status = 0b00#2 ∧ r.pktSeq.toNat = (s.buf.read 0).toNat % 32 ∧ r.pktLen.toNat = bufLen.toNat - 1 ∧
    (∀ j, j < bufLen.toNat - 1 → r.pay.read j = s.buf.read (j + 1)) ∧
    (∀ j, bufLen.toNat - 1 ≤ j → j < s.cfg.cap → r.pay.read j = 0x00#8)

/-- Rule R78 (the zero fields are decision D14): a response with a non-zero status carries no record, and no byte of BUF
reaches it: any other state of that capacity gives the same response. -/
def Obligations.ErrorsReturnNoPartialResult : Prop :=
  ∀ (bufPresent : BitVec 1) (bufLen : Len) (s s' : State) (r : ParseResponse), s'.cfg = s.cfg →
    exec (.parse bufPresent bufLen) s = .next (s.respond (.parse r)) → r.status ≠ 0b00#2 →
    (∃ e : ParseError, r.status = e.code) ∧ r.pktSeq = 0#5 ∧ r.pktLen = 0#16 ∧
    (∀ j, j < s.cfg.cap → r.pay.read j = 0x00#8) ∧
    exec (.parse bufPresent bufLen) s' = .next (s'.respond (.parse r))

/-- Rule R79: a header byte and at most CAP payload bytes, presented as a frame beside the encoded request, come back as
the record: through the decoder, BUF and the copying loop, from any state. -/
def Obligations.FrameRoundTrip : Prop :=
  ∀ (s : State) (rest : List Request) (h : Byte) (p : List Byte), p.length ≤ s.cfg.cap → s.buf.wf →
    s.requests = ⟨encode (.parse 1#1 (BitVec.ofNat 16 (p.length + 1))), some (h :: p)⟩ :: rest →
    ∃ (t : State) (r : ParseResponse), step s = .next t ∧ t.responses = s.responses ++ [.parse r] ∧
      r.status = 0b00#2 ∧ r.pktSeq.toNat = h.toNat % 32 ∧ r.pktLen.toNat = p.length ∧
      ∀ j, j < p.length → r.pay.read j = p.getD j 0x00#8

/-- Rule R80 (an inference the spec marks as its own): PARSE's response, PAY as data included, is a function of its
operands and of BUF below `buf_len`; what stands at or beyond `buf_len`, the requests and the earlier responses cannot
influence it. -/
def Obligations.ParseDependsOnlyOnTheFrame : Prop :=
  ∀ (bufPresent : BitVec 1) (bufLen : Len) (s s' : State), s'.cfg = s.cfg →
    (∀ k, k < bufLen.toNat → s'.buf.read k = s.buf.read k) → ∃ r : ParseResponse,
    exec (.parse bufPresent bufLen) s = .next (s.respond (.parse r)) ∧
    exec (.parse bufPresent bufLen) s' = .next (s'.respond (.parse r))

/-- Rule R49 for EXTRACT and PARSE, and rule R69 (decision D5, which rule R59 sets apart from R49) for VALIDATE: the
results do not depend on bits 7:5 of the header byte, nor on those of either VALIDATE operand. -/
def Obligations.HeaderFlagBitsAreIgnored : Prop :=
  (∀ (h h' : Byte) (s : State), h.toNat % 32 = h'.toNat % 32 → exec (.extract h) s = exec (.extract h') s) ∧
  (∀ (h h' g g' : Byte) (s : State), h.toNat % 32 = h'.toNat % 32 → g.toNat % 32 = g'.toNat % 32 →
    exec (.validate h g) s = exec (.validate h' g') s) ∧
  (∀ (bufPresent : BitVec 1) (bufLen : Len) (s s' : State), s'.cfg = s.cfg →
    (s'.buf.read 0).toNat % 32 = (s.buf.read 0).toNat % 32 → (∀ k, 1 ≤ k → s'.buf.read k = s.buf.read k) →
    ∃ r : ParseResponse, exec (.parse bufPresent bufLen) s = .next (s.respond (.parse r)) ∧
      exec (.parse bufPresent bufLen) s' = .next (s'.respond (.parse r)))

/-- Rules R82 and R103 (inferences the spec marks as its own): in every state a presented frame of the header byte alone
succeeds, with the header's sequence number, an empty payload and a zero PAY; where that sequence is 0 its response differs
from the error response of an empty buffer in `status` alone. -/
def Obligations.HeaderOnlyFrameSucceeds : Prop :=
  ∀ s : State, ∃ r e : ParseResponse,
    exec (.parse 1#1 1#16) s = .next (s.respond (.parse r)) ∧
    r.status = 0b00#2 ∧ r.pktSeq.toNat = (s.buf.read 0).toNat % 32 ∧ r.pktLen = 0#16 ∧ (∀ j, r.pay.read j = 0x00#8) ∧
    exec (.parse 1#1 0#16) s = .next (s.respond (.parse e)) ∧ e.status = 0b01#2 ∧
    ((s.buf.read 0).toNat % 32 = 0 → e = { r with status := 0b01#2 })

/-- Rule R81 (an inference the spec marks as its own): for a length that is not 0, the bounds check and the payload
length computed in 16-bit unsigned arithmetic give the results of the unbounded integers. -/
def Obligations.BoundsCheckInSixteenBits : Prop :=
  ∀ (bufLen : Len) (s : State), bufLen ≠ 0#16 → ∃ r : ParseResponse,
    exec (.parse 1#1 bufLen) s = .next (s.respond (.parse r)) ∧
    r.status = (if (BitVec.ofNat 16 s.cfg.cap).ult (bufLen - 1#16) then 0b11#2 else 0b00#2) ∧
    r.pktLen = (if (BitVec.ofNat 16 s.cfg.cap).ult (bufLen - 1#16) then 0#16 else bufLen - 1#16)

/-- Rule R19: every element of PAY and every record field gets its value in each PARSE, whatever PAY held before, and no
step changes a record that was given. -/
def Obligations.EachParseBuildsItsRecordFresh : Prop :=
  (∀ (cfg : Config) (buf pay pay' : Memory) (bufPresent : BitVec 1) (bufLen : Len),
    pay.wf → pay.within cfg.cap → pay'.wf → pay'.within cfg.cap →
    parseUnit cfg buf pay bufPresent bufLen = parseUnit cfg buf pay' bufPresent bufLen) ∧
  ∀ s t : State, step s = .next t → s.responses <+: t.responses

/-- spec/40_extract.md's closing inference: on every frame that is parsed, PARSE's sequence is EXTRACT's of byte 0. -/
def Obligations.ExtractAgreesWithParse : Prop :=
  ∀ (bufLen : Len) (s : State), 1 ≤ bufLen.toNat → bufLen.toNat ≤ s.cfg.cap + 1 → ∃ r : ParseResponse,
    exec (.parse 1#1 bufLen) s = .next (s.respond (.parse r)) ∧
    exec (.extract (s.buf.read 0)) s = .next (s.respond (.extract r.pktSeq))

/-- Rule R105 with log 6 and log 7 (the model's choice: an element of BUF the host does not fill stands as it was): the
payload of a frame longer than the bytes presented ends with what stood in BUF. -/
def Obligations.UnfilledBytesAreCopiedAsTheyStand : Prop :=
  ∀ (s : State) (rest : List Request) (bytes : List Byte) (bufLen : Len), s.buf.wf →
    1 ≤ bufLen.toNat → bufLen.toNat ≤ s.cfg.cap + 1 →
    s.requests = ⟨encode (.parse 1#1 bufLen), some bytes⟩ :: rest →
    ∃ (t : State) (r : ParseResponse), step s = .next t ∧ t.responses = s.responses ++ [.parse r] ∧
      ∀ j, j < bufLen.toNat - 1 →
        r.pay.read j = if j + 1 < bytes.length then bytes.getD (j + 1) 0x00#8 else s.buf.read (j + 1)

/-- The source's two facts about the codes (spec/30_encoding.md rule R53): an error's code is not success's, and
different kinds have different codes. -/
def Obligations.ErrorCodesAreDistinctAndNonzero : Prop :=
  (∀ e : ParseError, e.code ≠ statusSuccess) ∧ ∀ e e' : ParseError, e.code = e'.code → e = e'

/-! ## The whole machine -/

/-- The invariant of spec/10_state.md rule R18 and of the canonical spaces holds after every step from every state it
holds in: in every response, successful or not, `pkt_len <= CAP`, PAY has `CAP` elements and is zero beyond the payload,
TooShort is never reported and an error carries no record. -/
def Obligations.EveryStepKeepsTheInvariant : Prop :=
  ∀ s t : State, s.Inv → step s = .next t → t.Inv

/-- The invariant holds right after reset, for every capacity. -/
def Obligations.ResetMeetsTheInvariant : Prop :=
  (∀ cfg : Config, (State.resetWith cfg).Inv) ∧ State.reset.Inv

/-- What reset leaves: nothing presented, nothing answered, and the block does nothing on its own. That BUF is all zero
(log 5) and that an idle block refuses the step (log 4) are the model's choice. -/
def Obligations.ResetLeavesNothingPending : Prop :=
  ∀ cfg : Config, (State.resetWith cfg).cfg = cfg ∧ (State.resetWith cfg).requests = [] ∧
    (State.resetWith cfg).responses = [] ∧ (∀ a, (State.resetWith cfg).buf.read a = 0x00#8) ∧
    step (State.resetWith cfg) = .refused .noRequest

/-- Rule R99 (decision D16): the response to a request is the same right after reset as in any state, for every request
with BUF holding the intended bytes. -/
def Obligations.ResetIsNotObservable : Prop :=
  ∀ (s : State) (q : Request) (rest : List Request), s.requests = q :: rest → s.buf.wf → q.Proper s.cfg →
    ∃ (t : State) (r : Response), step s = .next t ∧ t.responses = s.responses ++ [r] ∧ soloResponse s.cfg q = some r

/-- Rule R92: after any run of transactions, errors among them, the block answers every further request exactly as
before, given the same BUF. -/
def Obligations.NoErrorIsFatalOrSticky : Prop :=
  ∀ (k : Nat) (s t : State), Sys2Proof.core.run k s = .next t → ∀ i : Instr, ∃ r : Response,
    exec i s = .next (s.respond r) ∧ exec i { t with buf := s.buf } = .next (State.respond { t with buf := s.buf } r)

/-- Rules R13, R15, R42: a run of any number of proper requests answers each with the response it has on its own right
after reset; nothing one transaction does reaches another. -/
def Obligations.RunsAnswerEachRequestAlone : Prop :=
  ∀ (qs : List Request) (s : State), s.buf.wf → s.requests = qs → (∀ q, q ∈ qs → q.Proper s.cfg) →
    ∃ t : State, Sys2Proof.core.run qs.length s = .next t ∧ t.requests = [] ∧
      t.responses.map some = s.responses.map some ++ qs.map (soloResponse s.cfg)

/-- Rule R42: the responses of a set of proper requests do not depend on the order in which they are issued. One function
gives the response to each request in both orders. -/
def Obligations.OrderOfRequestsDoesNotMatter : Prop :=
  ∀ (qs qs' : List Request) (s s' : State), qs.Perm qs' → s.cfg = s'.cfg → s.buf.wf → s'.buf.wf →
    s.requests = qs → s'.requests = qs' → (∀ q, q ∈ qs → q.Proper s.cfg) →
    ∃ (t t' : State) (f : Request → Response), Sys2Proof.core.run qs.length s = .next t ∧
      Sys2Proof.core.run qs'.length s' = .next t' ∧
      t.responses = s.responses ++ qs.map f ∧ t'.responses = s'.responses ++ qs'.map f
end

