-- ==== Sys2Proof/Tests/Slice0.lean ====
section
/-! SUPPORT. Small checks against the vectors of spec/95_test_vectors.md (whose results are worked out by hand from the
rules), the refusals of the checks in WellFormed.lean, and one witness for the hypotheses of every statement. -/

namespace Sys2Proof.Tests
open Sys2Proof.Machine

/-! ## Helpers -/

/-- A block of CAP = 16 after reset, with these requests to come. -/
def withRequests (qs : List Request) : State := { State.reset with requests := qs }

/-- What a test compares of a response: the response with PAY written out element by element for CAP = 16. -/
def flat : Response → Nat × Nat × Nat × List Byte
  | .extract seq => (seq.toNat, 0, 0, [])
  | .validate valid => (valid.toNat, 0, 0, [])
  | .parse r => (r.status.toNat, r.pktSeq.toNat, r.pktLen.toNat, (List.range 16).map r.pay.read)

/-- The response to one request presented after reset. -/
def answer (w : ReqWord) (bytes : Option (List Byte)) : Option (Nat × Nat × Nat × List Byte) :=
  (soloResponse Config.testConfiguration ⟨w, bytes⟩).map flat

/-! ## Decoding: words written out bit by bit from rules R56 to R58 -/

theorem test_decode_extract : decode 0b00_0000000000000000000000_11100101#32 = .ok (.extract 0xE5#8) := by decide
theorem test_decode_extract_ignored : decode 0b00_1111111111111111111111_00000000#32 = .ok (.extract 0x00#8) := by decide
theorem test_decode_validate : decode 0b01_00000000000000_00001111_00010000#32 = .ok (.validate 15#8 16#8) := by decide
theorem test_decode_validate_ignored : decode 0b01_11111111111111_00011111_00000000#32 = .ok (.validate 31#8 0#8) := by
  decide
theorem test_decode_parse : decode 0b10_0000000000000_1_0000000000010001#32 = .ok (.parse 1#1 17#16) := by decide
theorem test_decode_parse_absent : decode 0b10_1111111111111_0_1111111111111111#32 = .ok (.parse 0#1 65535#16) := by decide
theorem test_decode_reserved : decode 0b11_000000000000000000000000000000#32 = .error .reservedOp := by decide

theorem test_encode : encode (.extract 0xE5#8) = 0x000000E5#32 ∧ encode (.validate 31#8 1#8) = 0x40001F01#32 ∧
    encode (.parse 1#1 6#16) = 0x80010006#32 := by decide

theorem test_table_word : decodeTableWord 32 0x40001F00 = some (.validate 31#8 0#8) ∧
    decodeTableWord 32 0xC0000000 = none := by decide

/-- Steps 2 and 3 of Program 2. -/
theorem test_assemble : assemble [.buf [0xE0, 0x02, 0x03], .validate 31 0, .parse 1 3, .parse 1 1] =
    some [⟨0x40001F00#32, none⟩, ⟨0x80010003#32, some [0xE0#8, 0x02#8, 0x03#8]⟩, ⟨0x80010001#32, none⟩] := by decide

/-! ## WellFormed: each check refuses an ill-formed term -/

theorem test_refuses_extract_numeral : (AsmLine.extract 256).wellFormed = false := by decide
theorem test_refuses_validate_prev : (AsmLine.validate 256 0).wellFormed = false := by decide
theorem test_refuses_validate_cur : (AsmLine.validate 0 256).wellFormed = false := by decide
theorem test_refuses_parse_present : (AsmLine.parse 2 0).wellFormed = false := by decide
theorem test_refuses_parse_len : (AsmLine.parse 0 65536).wellFormed = false := by decide
theorem test_refuses_buf_byte : (AsmLine.buf [0, 256]).wellFormed = false := by decide
theorem test_refuses_program : assemble [.extract 0, .buf [256]] = none := by decide
theorem test_refuses_reserved_op : ReqWord.legal 0xC0000000#32 = false ∧ ReqWord.legal 0xBFFFFFFF#32 = true := by decide
theorem test_refuses_short_frame : (Instr.parse 1#1 3#16).suppliedBy Config.testConfiguration (some [1#8, 2#8]) = false ∧
    (Instr.parse 1#1 2#16).suppliedBy Config.testConfiguration (some [1#8, 2#8]) = true ∧
    (Instr.parse 1#1 18#16).suppliedBy Config.testConfiguration none = true := by decide

/-! ## One step: vectors X16, X7, V2, V14, P13, P7 -/

theorem test_extract_high_bits : answer 0x000000E5#32 none = some (5, 0, 0, []) := by decide
theorem test_extract_bit5 : answer 0x00000020#32 none = some (0, 0, 0, []) := by decide
theorem test_validate_wrap : answer 0x40001F00#32 none = some (1, 0, 0, []) := by decide
theorem test_validate_masks_cur : answer 0x40000021#32 none = some (1, 0, 0, []) := by decide
theorem test_parse_unread_bytes : answer 0x80010003#32 (some [0x21#8, 0x11#8, 0x22#8, 0x33#8, 0x44#8]) =
    some (0, 1, 2, [0x11#8, 0x22#8, 0#8, 0#8, 0#8, 0#8, 0#8, 0#8, 0#8, 0#8, 0#8, 0#8, 0#8, 0#8, 0#8, 0#8]) := by decide
theorem test_parse_full_frame : answer 0x80010011#32 (some [0xFF#8, 0x10#8, 0x11#8, 0x12#8, 0x13#8, 0x14#8, 0x15#8, 0x16#8,
    0x17#8, 0x18#8, 0x19#8, 0x1A#8, 0x1B#8, 0x1C#8, 0x1D#8, 0x1E#8, 0x1F#8]) =
    some (0, 31, 16, [0x10#8, 0x11#8, 0x12#8, 0x13#8, 0x14#8, 0x15#8, 0x16#8, 0x17#8,
      0x18#8, 0x19#8, 0x1A#8, 0x1B#8, 0x1C#8, 0x1D#8, 0x1E#8, 0x1F#8]) := by decide

theorem test_reset_idle : step State.reset = .refused .noRequest := rfl
theorem test_reset_memory : State.reset.buf.wf := by decide
theorem test_fetch_word : ∃ t, step (State.reset.withFetchWord 32 0x80000000) = .next t ∧
    t.responses.map flat = [(1, 0, 0, List.replicate 16 0#8)] := ⟨_, rfl, by decide⟩

/-! ## Witnesses: for every statement with hypotheses, data that meets them together -/

/-- A canonical BUF of CAP = 16 with a byte at each end. -/
def edgeBuf : Memory := [(0, 0x20#8), (16, 0x01#8)]

/-- The state of the witnesses: that BUF, one response given, these requests to come. -/
def sample (qs : List Request) : State := ⟨Config.testConfiguration, qs, edgeBuf, [.extract 3#5]⟩

theorem witness_FieldsOfTheThreeFormats : (0x3FFFFFFF#32).toNat / 2 ^ 30 = 0 ∧ (0x40000000#32).toNat / 2 ^ 30 = 1 ∧
    (0x7FFFFFFF#32).toNat / 2 ^ 30 = 1 ∧ (0x80000000#32).toNat / 2 ^ 30 = 2 ∧ (0xBFFFFFFF#32).toNat / 2 ^ 30 = 2 := by
  decide

theorem witness_OnlyTheReservedOpIsRefused :
    (sample [⟨0xC0000000#32, none⟩]).requests = ⟨0xC0000000#32, none⟩ :: [] ∧ (0xC0000000#32).toNat / 2 ^ 30 = 3 ∧
    (sample [⟨0xBFFFFFFF#32, none⟩]).requests = ⟨0xBFFFFFFF#32, none⟩ :: [] ∧ (0xBFFFFFFF#32).toNat / 2 ^ 30 ≠ 3 := by
  decide

theorem witness_AssemblerWordsAndRanges : (255 ≤ 255 ∧ 255 < 256) ∧ (255 ≤ 255 ∧ 0 ≤ 255 ∧ (255 < 0 ∨ 255 < 256)) ∧
    (1 ≤ 1 ∧ 65535 ≤ 65535 ∧ (1 < 2 ∨ 65535 < 0)) := by decide

theorem witness_StepRunsThePresentedRequest : ∃ i, (sample [⟨0x80010003#32, some [7#8]⟩]).requests =
    ⟨0x80010003#32, some [7#8]⟩ :: [] ∧ decode 0x80010003#32 = .ok i ∧ (sample [⟨0x80010003#32, some [7#8]⟩]).buf.wf :=
  ⟨.parse 1#1 3#16, by decide⟩

theorem witness_OneResponsePerRequest : (∃ t, step (sample [⟨0x40001F00#32, none⟩]) = .next t) ∧
    (sample []).requests = [] := ⟨⟨_, rfl⟩, rfl⟩

theorem witness_ExtractReturnsLowFiveBits : (0x00000000#32).toNat / 2 ^ 30 = 0 ∧ (0x3FFFFFE5#32).toNat / 2 ^ 30 = 0 := by
  decide

theorem witness_ValidateIsSuccessorModulo32 : (0x40000000#32).toNat / 2 ^ 30 = 1 ∧ (0x7FFF1F00#32).toNat / 2 ^ 30 = 1 := by
  decide

theorem witness_LawsOfValidate : ((31#8).toNat ≤ 31 ∧ (31#8).toNat ≠ ((31#8).toNat + 1) % 32) ∧
    exec (.validate 31#8 0#8) (sample []) = .next ((sample []).respond (.validate 1#1)) ∧
    exec (.validate 31#8 32#8) (sample []) = .next ((sample []).respond (.validate 1#1)) ∧
    exec (.validate 63#8 0#8) (sample []) = .next ((sample []).respond (.validate 1#1)) := ⟨by decide, rfl, rfl, rfl⟩

theorem witness_AbsentOrEmptyIsInvalidArgument : (0#1 = 0#1 ∨ 65535#16 = 0#16) ∧ (1#1 = 0#1 ∨ 0#16 = 0#16) ∧
    (sample []).cfg = Config.testConfiguration := by decide

theorem witness_OversizedPayloadIsRefusedWhole : (18#16 ≠ 0#16 ∧ (18#16).toNat - 1 > Config.testConfiguration.cap) ∧
    (65535#16 ≠ 0#16 ∧ (65535#16).toNat - 1 > Config.testConfiguration.cap) ∧
    (sample []).cfg = Config.testConfiguration := by decide

/-- Each clause at its boundaries, CAP = 16: vectors P3, P6 (status 1), P2, P7 (status 0), P8, P9 (status 3). -/
theorem witness_StatusTable :
    [0x80010000#32, 0x8000FFFF#32, 0x80010001#32, 0x80010011#32, 0x80010012#32, 0x8001FFFF#32].map
      (fun w => (answer w none).map (·.1)) = [some 1, some 1, some 0, some 0, some 3, some 3] := by decide

theorem witness_ParseCopiesTheFrame : (1 ≤ (1#16).toNat ∧ (1#16).toNat ≤ (sample []).cfg.cap + 1) ∧
    (1 ≤ (17#16).toNat ∧ (17#16).toNat ≤ (sample []).cfg.cap + 1) := by decide

theorem witness_ErrorsReturnNoPartialResult : State.reset.cfg = (sample []).cfg ∧ ∃ r : ParseResponse,
    exec (.parse 1#1 18#16) (sample []) = .next ((sample []).respond (.parse r)) ∧ r.status ≠ 0b00#2 :=
  ⟨rfl, ⟨0b11#2, 0#5, 0#16, []⟩, rfl, by decide⟩

theorem witness_FrameRoundTrip : ∃ (p : List Byte) (s : State), p.length = s.cfg.cap ∧ p.length ≤ s.cfg.cap ∧ s.buf.wf ∧
    s.requests = ⟨encode (.parse 1#1 (BitVec.ofNat 16 (p.length + 1))), some (0xE5#8 :: p)⟩ :: [] :=
  ⟨List.replicate 16 0xAA#8, sample [⟨0x80010011#32, some (0xE5#8 :: List.replicate 16 0xAA#8)⟩], by decide⟩

theorem witness_FrameRoundTrip_empty_payload :
    (sample [⟨0x80010001#32, some [0xE5#8]⟩]).requests =
      ⟨encode (.parse 1#1 (BitVec.ofNat 16 (([] : List Byte).length + 1))), some (0xE5#8 :: [])⟩ :: [] := by decide

theorem witness_ParseDependsOnlyOnTheFrame : State.reset.cfg = (sample []).cfg ∧ (sample []).buf ≠ [(0, 0x20#8)] ∧
    ∀ k, k < (16#16).toNat → Memory.read [(0, 0x20#8)] k = (sample []).buf.read k := by decide

theorem witness_HeaderFlagBitsAreIgnored : (0xE5#8).toNat % 32 = (0x05#8).toNat % 32 ∧
    (Memory.read [(0, 0x40#8), (16, 0x01#8)] 0).toNat % 32 = ((sample []).buf.read 0).toNat % 32 ∧
    ∀ k, 1 ≤ k → Memory.read [(0, 0x40#8), (16, 0x01#8)] k = (sample []).buf.read k := by
  refine ⟨by decide, by decide, fun k hk => ?_⟩
  simp only [sample, edgeBuf, Memory.read_cons, if_neg (show ¬ 0 = k by omega)]

theorem witness_HeaderOnlyFrameSucceeds : ((sample []).buf.read 0).toNat % 32 = 0 := by decide

theorem witness_BoundsCheckInSixteenBits : (1#16) ≠ 0#16 ∧ (65535#16) ≠ 0#16 := by decide

theorem witness_EachParseBuildsItsRecordFresh : Memory.wf [(0, 1#8), (15, 2#8)] ∧
    Memory.within [(0, 1#8), (15, 2#8)] Config.testConfiguration.cap ∧ freshPay.wf ∧
    freshPay.within Config.testConfiguration.cap ∧ ∃ t, step (sample [⟨0x80010001#32, none⟩]) = .next t :=
  ⟨by decide, by decide, by decide, by decide, ⟨_, rfl⟩⟩

theorem witness_ExtractAgreesWithParse : 1 ≤ (17#16).toNat ∧ (17#16).toNat ≤ (sample []).cfg.cap + 1 := by decide

theorem witness_UnfilledBytesAreCopiedAsTheyStand : (sample [⟨0x80010011#32, some [7#8, 8#8]⟩]).buf.wf ∧
    1 ≤ (17#16).toNat ∧ (17#16).toNat ≤ (sample []).cfg.cap + 1 ∧
    (sample [⟨0x80010011#32, some [7#8, 8#8]⟩]).requests = ⟨encode (.parse 1#1 17#16), some [7#8, 8#8]⟩ :: [] := by decide

theorem witness_ErrorCodesAreDistinctAndNonzero : ParseError.tooShort.code = ParseError.tooShort.code := rfl

theorem sample_inv (qs : List Request) : (sample qs).Inv :=
  ⟨by simp only [sample, edgeBuf]; decide, by simp only [sample, edgeBuf]; decide, by simp [sample, Response.Sound]⟩

theorem witness_EveryStepKeepsTheInvariant : (sample [⟨0x80010011#32, none⟩]).Inv ∧
    ∃ t, step (sample [⟨0x80010011#32, none⟩]) = .next t := ⟨sample_inv _, _, rfl⟩

/-- A frame of three bytes, supplied. -/
def goodRequest : Request := ⟨0x80010003#32, some [0xE0#8, 0x02#8, 0x03#8]⟩

/-- A request with an error for an answer. -/
def badRequest : Request := ⟨0x80000000#32, none⟩

theorem goodRequest_proper : goodRequest.Proper Config.testConfiguration :=
  ⟨by decide, fun i h => by cases (show Except.ok (.parse 1#1 3#16) = Except.ok i from h); decide⟩

theorem badRequest_proper : badRequest.Proper Config.testConfiguration :=
  ⟨by decide, fun i h => by cases (show Except.ok (.parse 0#1 0#16) = Except.ok i from h); decide⟩

theorem witness_ResetIsNotObservable : (sample [goodRequest]).requests = goodRequest :: [] ∧
    (sample [goodRequest]).buf.wf ∧ goodRequest.Proper (sample [goodRequest]).cfg :=
  ⟨rfl, by decide, goodRequest_proper⟩

theorem witness_NoErrorIsFatalOrSticky : ∃ t, Sys2Proof.core.run 2 (sample [badRequest, badRequest]) = .next t := ⟨_, rfl⟩

theorem witness_RunsAnswerEachRequestAlone : (sample [goodRequest, badRequest]).buf.wf ∧
    (sample [goodRequest, badRequest]).requests = [goodRequest, badRequest] ∧
    ∀ q, q ∈ [goodRequest, badRequest] → q.Proper (sample [goodRequest, badRequest]).cfg :=
  ⟨by decide, rfl, by simp [sample, goodRequest_proper, badRequest_proper]⟩

theorem witness_OrderOfRequestsDoesNotMatter : [goodRequest, badRequest].Perm [badRequest, goodRequest] ∧
    (sample [goodRequest, badRequest]).cfg = (withRequests [badRequest, goodRequest]).cfg ∧
    (sample [goodRequest, badRequest]).buf.wf ∧ (withRequests [badRequest, goodRequest]).buf.wf ∧
    (sample [goodRequest, badRequest]).requests = [goodRequest, badRequest] ∧
    (withRequests [badRequest, goodRequest]).requests = [badRequest, goodRequest] ∧
    ∀ q, q ∈ [goodRequest, badRequest] → q.Proper (sample [goodRequest, badRequest]).cfg :=
  ⟨List.Perm.swap _ _ _, rfl, by decide, by decide, rfl, rfl, by simp [sample, goodRequest_proper, badRequest_proper]⟩

end Sys2Proof.Tests
end

/-! ## Decoding a word by the number in its `op` field -/

namespace Sys2Proof

/-- The tests of `decode` as the number in bits 31:30 (rule R55). -/
theorem opField_eq_iff (w : ReqWord) (op : BitVec 2) : opField w = op ↔ w.toNat / 2 ^ 30 = op.toNat := by
  rw [← BitVec.toNat_inj, opField_toNat]

theorem decode_of_op_zero {w : ReqWord} (h : w.toNat / 2 ^ 30 = 0) : decode w = .ok (.extract (hdrField w)) := by
  simp only [decode, opField_eq_iff, h]; rfl

theorem decode_of_op_one {w : ReqWord} (h : w.toNat / 2 ^ 30 = 1) :
    decode w = .ok (.validate (prevField w) (curField w)) := by
  simp only [decode, opField_eq_iff, h]; rfl

theorem decode_of_op_two {w : ReqWord} (h : w.toNat / 2 ^ 30 = 2) :
    decode w = .ok (.parse (bufPresentField w) (bufLenField w)) := by
  simp only [decode, opField_eq_iff, h]; rfl

theorem decode_of_op_three {w : ReqWord} (h : w.toNat / 2 ^ 30 = 3) : decode w = .error .reservedOp := by
  simp only [decode, opField_eq_iff, h]; rfl

/-- Every word whose `op` is not the reserved one is an instruction (rule R60). -/
theorem decode_ok_of_op_ne_three {w : ReqWord} (h : w.toNat / 2 ^ 30 ≠ 3) : ∃ i, decode w = .ok i := by
  have hlt := w.isLt
  obtain h0 | h1 | h2 : w.toNat / 2 ^ 30 = 0 ∨ w.toNat / 2 ^ 30 = 1 ∨ w.toNat / 2 ^ 30 = 2 := by omega
  · exact ⟨_, decode_of_op_zero h0⟩
  · exact ⟨_, decode_of_op_one h1⟩
  · exact ⟨_, decode_of_op_two h2⟩

end Sys2Proof

namespace Sys2Proof.Machine

/-! ## The response of PARSE, by the condition that holds -/

/-- The success path (rules R76, R77) on a frame whose payload fits: it never faults, and PAY is the payload followed by
zeros whatever PAY held. -/
theorem parseFrame_spec {cfg : Config} {buf pay : Memory} {bufLen : Len} (hlen : payloadBytes bufLen ≤ cfg.cap)
    (hw : pay.wf) (hr : pay.within cfg.cap) :
    ∃ pay', parseFrame cfg buf pay bufLen =
        .ok { status := statusSuccess, pktSeq := seqField (buf.read 0), pktLen := bufLen - 1#16, pay := pay' } ∧
      pay'.wf ∧ pay'.within cfg.cap ∧ ∀ k, pay'.read k = if k < payloadBytes bufLen then buf.read (k + 1) else 0x00#8 := by
  obtain ⟨copied, hcopy, hcw, hcr, hcread⟩ :=
    copyPayload_spec (buf := buf) (j := 0) (n := payloadBytes bufLen) (by omega) hw hr
  obtain ⟨pay', hclear, hw', hr', hread⟩ :=
    clearPayload_spec (j := payloadBytes bufLen) (n := cfg.cap - payloadBytes bufLen) (by omega) hcw hcr
  refine ⟨pay', ?_, hw', hr', fun k => ?_⟩
  · simp [parseFrame, hcopy, hclear, bind, Except.bind]
  · by_cases hk : k < payloadBytes bufLen
    · rw [hread, if_neg (by omega), hcread, if_pos (by omega), if_pos hk]
    · rw [if_neg hk]
      by_cases hcap : k < cfg.cap
      · rw [hread, if_pos (by omega)]
      · exact Memory.read_eq_zero_of_within hr' (by omega)

theorem parseUnit_of_absent_or_empty {cfg : Config} {buf pay : Memory} {bufPresent : BitVec 1} {bufLen : Len}
    (h : bufPresent = 0#1 ∨ bufLen = 0#16) (hw : pay.wf) (hr : pay.within cfg.cap) :
    parseUnit cfg buf pay bufPresent bufLen =
      .ok { status := ParseError.invalidArgument.code, pktSeq := 0#5, pktLen := 0#16, pay := [] } := by
  rw [parseUnit, if_pos h, raise_spec hw hr]

/-- A buffer that is presented and not empty passes the tests of rules R73 and R74: the second can report no request. -/
theorem parseUnit_of_presented {cfg : Config} {buf pay : Memory} {bufPresent : BitVec 1} {bufLen : Len}
    (h : ¬(bufPresent = 0#1 ∨ bufLen = 0#16)) :
    parseUnit cfg buf pay bufPresent bufLen =
      if payloadBytes bufLen > cfg.cap then raise cfg pay .payloadTooLarge else parseFrame cfg buf pay bufLen := by
  have hne : bufLen.toNat ≠ 0 := fun h0 => h (.inr (BitVec.eq_of_toNat_eq h0))
  rw [parseUnit, if_neg h, if_neg (by rw [hdrMin]; omega)]

theorem parseUnit_of_oversized {cfg : Config} {buf pay : Memory} {bufPresent : BitVec 1} {bufLen : Len}
    (h : ¬(bufPresent = 0#1 ∨ bufLen = 0#16)) (hlen : payloadBytes bufLen > cfg.cap) (hw : pay.wf)
    (hr : pay.within cfg.cap) :
    parseUnit cfg buf pay bufPresent bufLen =
      .ok { status := ParseError.payloadTooLarge.code, pktSeq := 0#5, pktLen := 0#16, pay := [] } := by
  rw [parseUnit_of_presented h, if_pos hlen, raise_spec hw hr]

theorem parseUnit_of_frame {cfg : Config} {buf pay : Memory} {bufPresent : BitVec 1} {bufLen : Len}
    (h : ¬(bufPresent = 0#1 ∨ bufLen = 0#16)) (hlen : payloadBytes bufLen ≤ cfg.cap) :
    parseUnit cfg buf pay bufPresent bufLen = parseFrame cfg buf pay bufLen := by
  rw [parseUnit_of_presented h, if_neg (by omega)]

/-- The unit answers every operand: an error is a result, never a fault (rule R84). -/
theorem parseUnit_answers (cfg : Config) (buf : Memory) {pay : Memory} (bufPresent : BitVec 1) (bufLen : Len)
    (hw : pay.wf) (hr : pay.within cfg.cap) : ∃ r, parseUnit cfg buf pay bufPresent bufLen = .ok r := by
  by_cases h : bufPresent = 0#1 ∨ bufLen = 0#16
  · exact ⟨_, parseUnit_of_absent_or_empty h hw hr⟩
  · by_cases hlen : payloadBytes bufLen ≤ cfg.cap
    · obtain ⟨pay', hframe, -⟩ := parseFrame_spec (buf := buf) hlen hw hr
      exact ⟨_, (parseUnit_of_frame h hlen).trans hframe⟩
    · exact ⟨_, parseUnit_of_oversized h (by omega) hw hr⟩

/-! ## Running an instruction and a step -/

theorem exec_extract (hdr : Byte) (s : State) :
    exec (.extract hdr) s = .next (s.respond (.extract (seqField hdr))) := rfl

theorem exec_validate (prev cur : Byte) (s : State) :
    exec (.validate prev cur) s =
      .next (s.respond (.validate (validBit (seqField cur == nextSeq (seqField prev))))) := rfl

theorem exec_parse_of_parseUnit {bufPresent : BitVec 1} {bufLen : Len} {s : State} {r : ParseResponse}
    (h : parseUnit s.cfg s.buf freshPay bufPresent bufLen = .ok r) :
    exec (.parse bufPresent bufLen) s = .next (s.respond (.parse r)) := by
  simp only [exec, execParse, h]

/-- Every instruction answers in every state, and giving its response is all it does. -/
theorem exec_responds (i : Instr) (s : State) : ∃ r, exec i s = .next (s.respond r) := by
  cases i with
  | extract hdr => exact ⟨_, exec_extract hdr s⟩
  | validate prev cur => exact ⟨_, exec_validate prev cur s⟩
  | parse bufPresent bufLen =>
    obtain ⟨r, hr⟩ := parseUnit_answers s.cfg s.buf bufPresent bufLen freshPay_wf (freshPay_within _)
    exact ⟨_, exec_parse_of_parseUnit hr⟩

theorem step_of_decode_ok {s : State} {q : Request} {rest : List Request} {i : Instr} (hq : s.requests = q :: rest)
    (hd : decode q.word = .ok i) : step s = exec i (s.present q rest) := by
  simp only [step, fetch, hq, hd]

theorem step_of_decode_error {s : State} {q : Request} {rest : List Request} (hq : s.requests = q :: rest)
    (hd : decode q.word = .error .reservedOp) : step s = .refused .reservedOp := by
  simp only [step, fetch, hq, hd]

/-! ## The comparison of VALIDATE, in numbers -/

theorem seqField_toNat (v : Byte) : (seqField v).toNat = v.toNat % 32 := by
  simp [seqField, BitVec.extractLsb'_toNat]

theorem nextSeq_toNat (p : SeqNum) : (nextSeq p).toNat = (p.toNat + 1) % 32 := by
  simp [nextSeq, seqModulus]

@[simp] theorem validBit_eq_one_iff (b : Bool) : validBit b = 1#1 ↔ b = true := by
  cases b <;> decide

@[simp] theorem validBit_eq_zero_iff (b : Bool) : validBit b = 0#1 ↔ b = false := by
  cases b <;> decide

/-- `c == nxt` of rule R68, both operands masked (rule R69), as arithmetic modulo 32 on the raw bytes. -/
theorem seqField_eq_nextSeq_iff (prev cur : Byte) :
    seqField cur = nextSeq (seqField prev) ↔ cur.toNat % 32 = (prev.toNat % 32 + 1) % 32 := by
  rw [← BitVec.toNat_inj, nextSeq_toNat, seqField_toNat, seqField_toNat]

/-! ## The statements about the encoding, and VALIDATE's -/

/-- Settles O2: the decoder's branch for the `op` at hand, each field read as a number. -/
theorem fieldsOfTheThreeFormats : Obligations.FieldsOfTheThreeFormats := by
  intro w
  refine ⟨fun h => ?_, fun h => ?_, fun h => ?_⟩
  · exact ⟨_, decode_of_op_zero h, hdrField_toNat w⟩
  · exact ⟨_, _, decode_of_op_one h, prevField_toNat w, curField_toNat w⟩
  · exact ⟨_, _, decode_of_op_two h, bufPresentField_toNat w, bufLenField_toNat w⟩

/-- Settles O3: the reserved word has no instruction; every other word has one, and every instruction answers. -/
theorem onlyTheReservedOpIsRefused : Obligations.OnlyTheReservedOpIsRefused := by
  intro s q rest hq
  refine ⟨fun h => step_of_decode_error hq (decode_of_op_three h), fun h => ?_⟩
  obtain ⟨i, hi⟩ := decode_ok_of_op_ne_three h
  obtain ⟨r, hr⟩ := exec_responds i (s.present q rest)
  exact ⟨_, (step_of_decode_ok hq hi).trans hr⟩

/-- Settles O14: the response is the bit of the masked comparison, and the operands are format V's fields. -/
theorem validateIsSuccessorModulo32 : Obligations.ValidateIsSuccessorModulo32 := by
  refine ⟨fun prev cur s => ⟨_, exec_validate prev cur s, ?_, ?_⟩, fun w h => ?_⟩
  · rw [validBit_eq_one_iff, beq_iff_eq, seqField_eq_nextSeq_iff]
  · rw [validBit_eq_zero_iff, beq_eq_false_iff_ne, ne_eq, seqField_eq_nextSeq_iff]
  · obtain ⟨-, formatV, -⟩ := fieldsOfTheThreeFormats w
    obtain ⟨prev, cur, hd, hprev, hcur⟩ := formatV h
    rw [hd, ← hprev, ← hcur, BitVec.ofNat_toNat, BitVec.ofNat_toNat, BitVec.setWidth_eq, BitVec.setWidth_eq]

end Sys2Proof.Machine

/-! ## EXTRACT's statement -/

namespace Sys2Proof.Machine

/-- Rule R66's mask `0x1F` keeps exactly the bits of the sequence field. -/
theorem seqField_toNat_eq_mask (v : Byte) : (seqField v).toNat = (v &&& 0x1F#8).toNat := by
  rw [seqField_toNat, BitVec.toNat_and]
  exact (Nat.and_two_pow_sub_one_eq_mod v.toNat 5).symm

theorem seqField_getLsbD {k : Nat} (v : Byte) (hk : k < 5) : (seqField v).getLsbD k = v.getLsbD k := by
  simp [seqField, hk]

/-- Settles O12: the response is the sequence field of the operand, and the operand is format X's one field. -/
theorem extractReturnsLowFiveBits : Obligations.ExtractReturnsLowFiveBits := by
  refine ⟨fun hdr s => ?_, fun w h => ?_⟩
  · exact ⟨_, exec_extract hdr s, seqField_toNat_eq_mask hdr, fun k hk => seqField_getLsbD hdr hk⟩
  · obtain ⟨formatX, -, -⟩ := fieldsOfTheThreeFormats w
    obtain ⟨hdr, hd, hhdr⟩ := formatX h
    rw [hd, ← hhdr, BitVec.ofNat_toNat, BitVec.setWidth_eq]

end Sys2Proof.Machine

/-! ## Decoding the encoded PARSE -/

namespace Sys2Proof

@[simp] theorem bufPresentField_encode_parse (p : BitVec 1) (n : Len) : bufPresentField (encode (.parse p n)) = p := by
  ext i hi; interval_cases i; simp [bufPresentField, encode]

@[simp] theorem bufLenField_encode_parse (p : BitVec 1) (n : Len) : bufLenField (encode (.parse p n)) = n := by
  ext i hi; interval_cases i <;> simp [bufLenField, encode]

theorem decode_encode_parse (p : BitVec 1) (n : Len) : decode (encode (.parse p n)) = .ok (.parse p n) := by
  have hop : (encode (.parse p n)).toNat / 2 ^ 30 = 2 := (opField_eq_iff _ 0b10#2).1 (opField_encode_parse p n)
  rw [decode_of_op_two hop, bufPresentField_encode_parse, bufLenField_encode_parse]

end Sys2Proof

namespace Sys2Proof.Machine

/-! ## PARSE as an instruction, by the condition that holds -/

/-- A presented buffer passes the test of rule R73 when its length is not 0. -/
theorem not_absent_or_empty_of_ne_zero {bufLen : Len} (h : bufLen ≠ 0#16) : ¬((1#1 : BitVec 1) = 0#1 ∨ bufLen = 0#16) :=
  not_or.2 ⟨by decide, h⟩

theorem exec_parse_of_absent_or_empty {bufPresent : BitVec 1} {bufLen : Len} (s : State)
    (h : bufPresent = 0#1 ∨ bufLen = 0#16) :
    exec (.parse bufPresent bufLen) s = .next (s.respond (.parse
      { status := ParseError.invalidArgument.code, pktSeq := 0#5, pktLen := 0#16, pay := [] })) :=
  exec_parse_of_parseUnit (parseUnit_of_absent_or_empty h freshPay_wf (freshPay_within _))

theorem exec_parse_of_oversized {bufPresent : BitVec 1} {bufLen : Len} {s : State}
    (h : ¬(bufPresent = 0#1 ∨ bufLen = 0#16)) (hlen : payloadBytes bufLen > s.cfg.cap) :
    exec (.parse bufPresent bufLen) s = .next (s.respond (.parse
      { status := ParseError.payloadTooLarge.code, pktSeq := 0#5, pktLen := 0#16, pay := [] })) :=
  exec_parse_of_parseUnit (parseUnit_of_oversized h hlen freshPay_wf (freshPay_within _))

theorem exec_parse_of_frame {bufPresent : BitVec 1} {bufLen : Len} {s : State}
    (h : ¬(bufPresent = 0#1 ∨ bufLen = 0#16)) (hlen : payloadBytes bufLen ≤ s.cfg.cap) :
    ∃ pay : Memory, exec (.parse bufPresent bufLen) s = .next (s.respond (.parse
        { status := statusSuccess, pktSeq := seqField (s.buf.read 0), pktLen := bufLen - 1#16, pay := pay })) ∧
      ∀ k, pay.read k = if k < payloadBytes bufLen then s.buf.read (k + 1) else 0x00#8 := by
  obtain ⟨pay, hframe, -, -, hread⟩ := parseFrame_spec (buf := s.buf) hlen freshPay_wf (freshPay_within _)
  exact ⟨pay, exec_parse_of_parseUnit ((parseUnit_of_frame h hlen).trans hframe), hread⟩

/-- Everything PARSE can answer: in every state of `s`'s capacity the one response of an error, or in `s` a success. -/
theorem exec_parse_cases (bufPresent : BitVec 1) (bufLen : Len) (s : State) :
    (∃ e : ParseError, ∀ s' : State, s'.cfg = s.cfg → exec (.parse bufPresent bufLen) s' = .next (s'.respond (.parse
      { status := e.code, pktSeq := 0#5, pktLen := 0#16, pay := [] }))) ∨
    (∃ r : ParseResponse, r.status = statusSuccess ∧
      exec (.parse bufPresent bufLen) s = .next (s.respond (.parse r))) := by
  by_cases h : bufPresent = 0#1 ∨ bufLen = 0#16
  · exact .inl ⟨.invalidArgument, fun s' _ => exec_parse_of_absent_or_empty s' h⟩
  · by_cases hlen : payloadBytes bufLen ≤ s.cfg.cap
    · obtain ⟨pay, hexec, -⟩ := exec_parse_of_frame h hlen
      exact .inr ⟨_, rfl, hexec⟩
    · exact .inl ⟨.payloadTooLarge, fun s' hcfg => exec_parse_of_oversized h (by rw [hcfg]; omega)⟩

/-- One execution gives one PARSE response. -/
theorem parseResponse_unique {i : Instr} {s : State} {r r' : ParseResponse}
    (h : exec i s = .next (s.respond (.parse r))) (h' : exec i s = .next (s.respond (.parse r'))) : r = r' :=
  Response.parse.inj (State.respond_inj (Host.Outcome.next.inj (h.symm.trans h')))

/-- What BUF holds of the bytes the host presents, where they fit. -/
theorem present_buf_read_of_lt {s : State} {bytes : List Byte} {k : Nat} (w : ReqWord) (rest : List Request)
    (hw : s.buf.wf) (hk : k < bytes.length) (hcap : k ≤ s.cfg.cap) :
    (s.present ⟨w, some bytes⟩ rest).buf.read k = bytes.getD k 0x00#8 := by
  rw [State.present_buf, bufFor_some, fillBuf_read hw, if_pos (by omega), Nat.sub_zero]

/-! ## PARSE's statements -/

/-- Settles O17: the first test of the unit raises InvalidArgument before anything is read. -/
theorem absentOrEmptyIsInvalidArgument : Obligations.AbsentOrEmptyIsInvalidArgument := by
  intro bufPresent bufLen cfg h
  exact ⟨[], fun j _ => Memory.read_nil j, fun s _ => exec_parse_of_absent_or_empty s h⟩

/-- Settles O18: the capacity test of the unit raises PayloadTooLarge before anything is read. -/
theorem oversizedPayloadIsRefusedWhole : Obligations.OversizedPayloadIsRefusedWhole := by
  intro bufLen cfg hne hlen
  refine ⟨[], fun j _ => Memory.read_nil j, fun s hs => ?_⟩
  subst hs
  exact exec_parse_of_oversized (not_absent_or_empty_of_ne_zero hne) hlen

/-- Settles O20: the success path, whose PAY is the payload followed by zeros. -/
theorem parseCopiesTheFrame : Obligations.ParseCopiesTheFrame := by
  intro bufLen s hmin hmax
  have hne : bufLen ≠ 0#16 := by rintro rfl; simp at hmin
  have hfits : payloadBytes bufLen ≤ s.cfg.cap := by rw [payloadBytes]; omega
  obtain ⟨pay, hexec, hread⟩ := exec_parse_of_frame (not_absent_or_empty_of_ne_zero hne) hfits
  refine ⟨_, hexec, rfl, seqField_toNat _, ?_, fun j hj => ?_, fun j hj _ => ?_⟩
  · exact BitVec.toNat_sub_of_le (BitVec.le_def.2 hmin)
  · rw [hread, payloadBytes, if_pos hj]
  · rw [hread, payloadBytes, if_neg (by omega)]

/-- Settles O21: a status that is not success is the response of an error, which every state of the capacity shares. -/
theorem errorsReturnNoPartialResult : Obligations.ErrorsReturnNoPartialResult := by
  intro bufPresent bufLen s s' r hcfg hexec hstatus
  obtain ⟨e, herror⟩ | ⟨r', hsuccess, hexec'⟩ := exec_parse_cases bufPresent bufLen s
  · obtain rfl := parseResponse_unique hexec (herror s rfl)
    exact ⟨⟨e, rfl⟩, rfl, rfl, fun j _ => Memory.read_nil j, herror s' hcfg⟩
  · obtain rfl := parseResponse_unique hexec hexec'
    exact absurd hsuccess hstatus

/-- Settles O22: the step decodes the request it was encoded from and parses the frame that filling BUF left there. -/
theorem frameRoundTrip : Obligations.FrameRoundTrip := by
  intro s rest h p hp hw hq
  generalize hn : BitVec.ofNat 16 (p.length + 1) = n at hq
  have hlen : n.toNat = p.length + 1 := by
    have := s.cfg.cap_le
    rw [← hn, BitVec.toNat_ofNat, Nat.mod_eq_of_lt (by omega)]
  have hbuf : ∀ k, k < p.length + 1 →
      (s.present ⟨encode (.parse 1#1 n), some (h :: p)⟩ rest).buf.read k = (h :: p).getD k 0x00#8 := fun k hk =>
    present_buf_read_of_lt _ rest hw hk (by omega)
  obtain ⟨r, hexec, hstatus, hseq, hpktLen, hcopied, -⟩ :=
    parseCopiesTheFrame n (s.present ⟨encode (.parse 1#1 n), some (h :: p)⟩ rest) (by omega)
      (by rw [hlen, State.present_cfg]; omega)
  refine ⟨_, r, (step_of_decode_ok hq (decode_encode_parse _ _)).trans hexec, rfl, hstatus, ?_, ?_, fun j hj => ?_⟩
  · rw [hseq, hbuf 0 (by omega), List.getD_cons_zero]
  · rw [hpktLen, hlen, Nat.add_sub_cancel]
  · rw [hcopied j (by omega), hbuf (j + 1) (by omega), List.getD_cons_succ]

end Sys2Proof.Machine

/-! ## After any run, errors included -/

namespace Sys2Proof.Machine

/-- Everything a step that completes has done: it took the next request, whose word has an instruction, and gave one
response in the state with that request presented. -/
theorem step_next_inv {s t : State} (h : step s = .next t) :
    ∃ q rest i r, s.requests = q :: rest ∧ decode q.word = .ok i ∧
      exec i (s.present q rest) = .next ((s.present q rest).respond r) ∧ t = (s.present q rest).respond r := by
  obtain ⟨-, hf⟩ | ⟨q, rest, -, -, hf⟩ | ⟨q, rest, i, hq, hd, -⟩ := fetch_cases s
  · simp [step, hf] at h
  · simp [step, hf] at h
  · obtain ⟨r, hexec⟩ := exec_responds i (s.present q rest)
    rw [step_of_decode_ok hq hd, hexec] at h
    exact ⟨q, rest, i, r, hq, hd, hexec, (Host.Outcome.next.inj h).symm⟩

/-- No step writes CAP (rule R23). -/
theorem step_keeps_cfg {s t : State} (h : step s = .next t) : t.cfg = s.cfg := by
  obtain ⟨q, rest, i, r, -, -, -, rfl⟩ := step_next_inv h
  rw [State.respond_cfg, State.present_cfg]

theorem run_succ_next_inv {M : Host.Core} {k : Nat} {s t : M.State} (h : M.run (k + 1) s = .next t) :
    ∃ s', M.step s = .next s' ∧ M.run k s' = .next t := by
  rw [Host.Core.run] at h
  split at h
  case h_1 s' hstep => exact ⟨s', hstep, h⟩
  case h_2 => cases h
  case h_3 => cases h

/-- What every step keeps, every run keeps. -/
theorem run_preserves {M : Host.Core} {P : M.State → Prop} (hstep : ∀ s t, P s → M.step s = .next t → P t) {k : Nat}
    {s t : M.State} (hs : P s) (h : M.run k s = .next t) : P t := by
  induction k generalizing s with
  | zero => exact Host.Outcome.next.inj h ▸ hs
  | succ k ih =>
    obtain ⟨s', hfirst, hrest⟩ := run_succ_next_inv h
    exact ih (hstep s s' hs hfirst) hrest

theorem run_keeps_cfg {k : Nat} {s t : State} (h : Sys2Proof.core.run k s = .next t) : t.cfg = s.cfg :=
  run_preserves (P := fun u : State => u.cfg = s.cfg) (fun _ _ hu hstep => (step_keeps_cfg hstep).trans hu) rfl h

/-- CAP and BUF are all of the state that a response depends on. -/
theorem exec_same_response (i : Instr) {s s' : State} (hcfg : s'.cfg = s.cfg) (hbuf : s'.buf = s.buf) :
    ∃ r, exec i s = .next (s.respond r) ∧ exec i s' = .next (s'.respond r) := by
  cases i with
  | extract hdr => exact ⟨_, exec_extract hdr s, exec_extract hdr s'⟩
  | validate prev cur => exact ⟨_, exec_validate prev cur s, exec_validate prev cur s'⟩
  | parse bufPresent bufLen =>
    obtain ⟨r, hr⟩ := parseUnit_answers s.cfg s.buf bufPresent bufLen freshPay_wf (freshPay_within _)
    have hr' : parseUnit s'.cfg s'.buf freshPay bufPresent bufLen = .ok r := by rw [hcfg, hbuf, hr]
    exact ⟨_, exec_parse_of_parseUnit hr, exec_parse_of_parseUnit hr'⟩

/-- Settles O35: a run can change BUF, the requests to come and the responses given, never CAP; with BUF put back, all
that a response depends on is as before. -/
theorem noErrorIsFatalOrSticky : Obligations.NoErrorIsFatalOrSticky := by
  intro k s t hrun i
  have hcfg : t.cfg = s.cfg := run_keeps_cfg hrun
  exact exec_same_response i hcfg rfl

end Sys2Proof.Machine

/-! ## Before and after a reset -/

namespace Sys2Proof.Machine

/-- The success path depends on the frame alone: BUF below `buf_len`. -/
theorem parseFrame_eq_of_same_frame {cfg : Config} {buf buf' pay : Memory} {bufLen : Len} (hne : bufLen ≠ 0#16)
    (hlen : payloadBytes bufLen ≤ cfg.cap) (hw : pay.wf) (hr : pay.within cfg.cap)
    (hsame : ∀ k, k < bufLen.toNat → buf'.read k = buf.read k) :
    parseFrame cfg buf' pay bufLen = parseFrame cfg buf pay bufLen := by
  have hpos : bufLen.toNat ≠ 0 := fun h0 => hne (BitVec.eq_of_toNat_eq h0)
  obtain ⟨p, hframe, hpw, -, hread⟩ := parseFrame_spec (buf := buf) hlen hw hr
  obtain ⟨p', hframe', hpw', -, hread'⟩ := parseFrame_spec (buf := buf') hlen hw hr
  have hpay : p' = p := Memory.ext_read hpw' hpw fun k => by
    rw [hread, hread']
    split
    case isTrue hk => exact hsame (k + 1) (by rw [payloadBytes] at hk; omega)
    case isFalse => rfl
  rw [hframe, hframe', hpay, hsame 0 (by omega)]

/-- PARSE's response depends on the capacity and, where it reads BUF at all (rule R31), on the frame alone. -/
theorem exec_parse_same_response {bufPresent : BitVec 1} {bufLen : Len} {s s' : State} (hcfg : s'.cfg = s.cfg)
    (hsame : bufPresent ≠ 0#1 → bufLen.toNat ≤ s.cfg.cap + 1 → ∀ k, k < bufLen.toNat → s'.buf.read k = s.buf.read k) :
    ∃ r, exec (.parse bufPresent bufLen) s = .next (s.respond r) ∧
      exec (.parse bufPresent bufLen) s' = .next (s'.respond r) := by
  by_cases h : bufPresent = 0#1 ∨ bufLen = 0#16
  · exact ⟨_, exec_parse_of_absent_or_empty s h, exec_parse_of_absent_or_empty s' h⟩
  · by_cases hlen : payloadBytes bufLen ≤ s.cfg.cap
    · obtain ⟨hpresent, hne⟩ := not_or.1 h
      have hframe := parseFrame_eq_of_same_frame hne hlen freshPay_wf (freshPay_within _)
        (hsame hpresent (by rw [payloadBytes] at hlen; omega))
      obtain ⟨r, hr⟩ := parseUnit_answers s.cfg s.buf bufPresent bufLen freshPay_wf (freshPay_within _)
      have hr' : parseUnit s'.cfg s'.buf freshPay bufPresent bufLen = .ok r := by
        rw [hcfg, parseUnit_of_frame h hlen, hframe, ← parseUnit_of_frame h hlen, hr]
      exact ⟨_, exec_parse_of_parseUnit hr, exec_parse_of_parseUnit hr'⟩
    · exact ⟨_, exec_parse_of_oversized h (by omega), exec_parse_of_oversized h (by rw [hcfg]; omega)⟩

/-- What BUF holds of the bytes beside the request, if there are any, where they fit. -/
theorem present_buf_read_of_supplied {s : State} {q : Request} {k : Nat} (rest : List Request) (hw : s.buf.wf)
    (hk : k < (q.bufBytes.getD []).length) (hcap : k ≤ s.cfg.cap) :
    (s.present q rest).buf.read k = (q.bufBytes.getD []).getD k 0x00#8 := by
  obtain ⟨w, _ | bytes⟩ := q
  · simp at hk
  · exact present_buf_read_of_lt w rest hw hk hcap

/-- Where PARSE reads BUF at all (rule R31), a supplied frame lies within the bytes the host presents (rule R105). -/
theorem length_of_suppliedBy_parse {cfg : Config} {bytes : Option (List Byte)} {bufPresent : BitVec 1} {bufLen : Len}
    (h : (Instr.parse bufPresent bufLen).suppliedBy cfg bytes = true) (hpresent : bufPresent ≠ 0#1)
    (hlen : bufLen.toNat ≤ cfg.cap + 1) : bufLen.toNat ≤ (bytes.getD []).length := by
  simp only [Instr.suppliedBy, Bool.or_eq_true, beq_iff_eq, decide_eq_true_eq] at h
  obtain (habsent | hover) | hle := h
  · exact absurd habsent hpresent
  · omega
  · exact hle

/-- An instruction whose bytes are supplied has one response in all states of a capacity with its request presented:
whatever stood in BUF before, PARSE reads only what the host put there. -/
theorem exec_present_same_response {i : Instr} {s s' : State} {q : Request} (rest rest' : List Request)
    (hcfg : s'.cfg = s.cfg) (hw : s.buf.wf) (hw' : s'.buf.wf) (hi : i.suppliedBy s.cfg q.bufBytes = true) :
    ∃ r, exec i (s.present q rest) = .next ((s.present q rest).respond r) ∧
      exec i (s'.present q rest') = .next ((s'.present q rest').respond r) := by
  cases i with
  | extract hdr => exact ⟨_, exec_extract hdr _, exec_extract hdr _⟩
  | validate prev cur => exact ⟨_, exec_validate prev cur _, exec_validate prev cur _⟩
  | parse bufPresent bufLen =>
    refine exec_parse_same_response hcfg fun hpresent hlen k hk => ?_
    rw [State.present_cfg] at hlen
    have hsupplied := length_of_suppliedBy_parse hi hpresent hlen
    rw [present_buf_read_of_supplied rest hw (by omega) (by omega),
      present_buf_read_of_supplied rest' hw' (by omega) (by rw [hcfg]; omega)]

/-- A proper request gets one response from every state of a capacity that presents it next. -/
theorem step_same_response {s s' : State} {q : Request} {rest rest' : List Request} (hcfg : s'.cfg = s.cfg)
    (hw : s.buf.wf) (hw' : s'.buf.wf) (hq : s.requests = q :: rest) (hq' : s'.requests = q :: rest')
    (hp : q.Proper s.cfg) :
    ∃ r, step s = .next ((s.present q rest).respond r) ∧ step s' = .next ((s'.present q rest').respond r) := by
  obtain ⟨hlegal, hsupplied⟩ := hp
  obtain ⟨i, hi⟩ := decode_ok_of_op_ne_three (bne_iff_ne.1 hlegal)
  obtain ⟨r, hr, hr'⟩ := exec_present_same_response rest rest' hcfg hw hw' (hsupplied i hi)
  exact ⟨r, (step_of_decode_ok hq hi).trans hr, (step_of_decode_ok hq' hi).trans hr'⟩

theorem soloResponse_of_step {cfg : Config} {q : Request} {t : State} {r : Response}
    (h : step { State.resetWith cfg with requests := [q] } = .next (t.respond r)) : soloResponse cfg q = some r := by
  rw [soloResponse, h]
  exact List.getLast?_concat

/-- What a step answers to a proper request is its response on its own right after reset. -/
theorem step_answers_soloResponse {s : State} {q : Request} {rest : List Request} (hq : s.requests = q :: rest)
    (hw : s.buf.wf) (hp : q.Proper s.cfg) :
    ∃ r, step s = .next ((s.present q rest).respond r) ∧ soloResponse s.cfg q = some r := by
  obtain ⟨r, hstep, hsolo⟩ := step_same_response (s := s)
    (s' := { State.resetWith s.cfg with requests := [q] }) rfl hw Memory.wf_nil hq rfl hp
  exact ⟨r, hstep, soloResponse_of_step hsolo⟩

/-- Settles O34: the reset state is one of the states of its capacity, in all of which the request has one response. -/
theorem resetIsNotObservable : Obligations.ResetIsNotObservable := by
  intro s q rest hq hw hp
  obtain ⟨r, hstep, hsolo⟩ := step_answers_soloResponse hq hw hp
  exact ⟨_, r, hstep, rfl, hsolo⟩

end Sys2Proof.Machine

/-! ## Decoding the encoding of every instruction -/

namespace Sys2Proof

@[simp] theorem hdrField_encode_extract (hdr : Byte) : hdrField (encode (.extract hdr)) = hdr := by
  ext i hi; interval_cases i <;> simp [hdrField, encode]

@[simp] theorem prevField_encode_validate (prev cur : Byte) : prevField (encode (.validate prev cur)) = prev := by
  ext i hi; interval_cases i <;> simp [prevField, encode]

@[simp] theorem curField_encode_validate (prev cur : Byte) : curField (encode (.validate prev cur)) = cur := by
  ext i hi; interval_cases i <;> simp [curField, encode]

theorem decode_eq_extract_iff {w : ReqWord} {hdr : Byte} :
    decode w = .ok (.extract hdr) ↔ opField w = 0b00#2 ∧ hdrField w = hdr := by
  unfold decode; split_ifs <;> simp_all

theorem decode_eq_validate_iff {w : ReqWord} {prev cur : Byte} :
    decode w = .ok (.validate prev cur) ↔ opField w = 0b01#2 ∧ prevField w = prev ∧ curField w = cur := by
  unfold decode; split_ifs <;> simp_all

theorem decode_eq_parse_iff {w : ReqWord} {p : BitVec 1} {n : Len} :
    decode w = .ok (.parse p n) ↔ opField w = 0b10#2 ∧ bufPresentField w = p ∧ bufLenField w = n := by
  unfold decode; split_ifs <;> simp_all

theorem decode_encode (i : Instr) : decode (encode i) = .ok i := by
  cases i with
  | extract hdr =>
    exact decode_eq_extract_iff.2 ⟨opField_encode_extract hdr, hdrField_encode_extract hdr⟩
  | validate prev cur =>
    exact decode_eq_validate_iff.2 ⟨opField_encode_validate prev cur, prevField_encode_validate prev cur,
      curField_encode_validate prev cur⟩
  | parse p n => exact decode_encode_parse p n

/-- Settles O5: each field of the encoding is the operand that was put there. -/
theorem decodeOfEncodeIsTheInstruction : Obligations.DecodeOfEncodeIsTheInstruction :=
  decode_encode

/-- Settles O1: the decoder evaluated on the eight words. -/
theorem writtenOutWordsDecode : Obligations.WrittenOutWordsDecode := by
  unfold Obligations.WrittenOutWordsDecode
  decide

/-! ## The opcode table and the bits a format uses -/

/-- The masked word of rule R61 is its `op` field moved to bits 31:30. -/
theorem and_rowMask (w : ReqWord) : w &&& rowMask = (opField w).setWidth 32 <<< 30 := by
  ext i hi; interval_cases i <;> simp [rowMask, opField]

theorem and_rowMask_eq_iff (w : ReqWord) (op : BitVec 2) :
    w &&& rowMask = op.setWidth 32 <<< 30 ↔ opField w = op := by
  have hinj : ∀ a b : BitVec 2, a.setWidth 32 <<< 30 = b.setWidth 32 <<< 30 ↔ a = b := by decide
  rw [and_rowMask, hinj]

/-- Settles O4: the decoder tests `op`, and `op` is what the mask keeps. -/
theorem decodeAgreesWithOpcodeTable : Obligations.DecodeAgreesWithOpcodeTable := by
  intro w
  simp only [decode_eq_extract_iff, decode_eq_validate_iff, decode_eq_parse_iff, exists_and_left, exists_eq', and_true]
  exact ⟨(and_rowMask_eq_iff w 0b00#2).symm, (and_rowMask_eq_iff w 0b01#2).symm, (and_rowMask_eq_iff w 0b10#2).symm⟩

/-- A word with the bits format X does not use cleared (rule R59). -/
theorem and_usedBits_extract (w : ReqWord) (hdr : Byte) :
    w &&& (Instr.extract hdr).usedBits = ((opField w).setWidth 32 <<< 30) ||| (hdrField w).setWidth 32 := by
  ext i hi; interval_cases i <;> simp [Instr.usedBits, opField, hdrField]

theorem and_usedBits_validate (w : ReqWord) (prev cur : Byte) :
    w &&& (Instr.validate prev cur).usedBits =
      ((opField w).setWidth 32 <<< 30) ||| ((prevField w).setWidth 32 <<< 8) ||| (curField w).setWidth 32 := by
  ext i hi; interval_cases i <;> simp [Instr.usedBits, opField, prevField, curField]

theorem and_usedBits_parse (w : ReqWord) (p : BitVec 1) (n : Len) :
    w &&& (Instr.parse p n).usedBits =
      ((opField w).setWidth 32 <<< 30) ||| ((bufPresentField w).setWidth 32 <<< 16) |||
        (bufLenField w).setWidth 32 := by
  ext i hi; interval_cases i <;> simp [Instr.usedBits, opField, bufPresentField, bufLenField]

/-- A word carries the encoding of what it decodes to (rule R59). -/
theorem and_usedBits_of_decode {w : ReqWord} {i : Instr} (h : decode w = .ok i) : w &&& i.usedBits = encode i := by
  cases i with
  | extract hdr =>
    obtain ⟨hop, rfl⟩ := decode_eq_extract_iff.1 h
    rw [and_usedBits_extract, hop]; rfl
  | validate prev cur =>
    obtain ⟨hop, rfl, rfl⟩ := decode_eq_validate_iff.1 h
    rw [and_usedBits_validate, hop]; rfl
  | parse p n =>
    obtain ⟨hop, rfl, rfl⟩ := decode_eq_parse_iff.1 h
    rw [and_usedBits_parse, hop]; rfl

/-- A field inside a mask is the same in the masked word. -/
theorem extractLsb'_and_of_allOnes {w m : ReqWord} {start len : Nat}
    (h : m.extractLsb' start len = BitVec.allOnes len) : (w &&& m).extractLsb' start len = w.extractLsb' start len := by
  rw [BitVec.extractLsb'_and, h, BitVec.and_allOnes]

/-- Every field of a format lies in its used bits, so clearing the others does not change what a word decodes to. -/
theorem decode_and_usedBits (w : ReqWord) (i : Instr) : decode (w &&& i.usedBits) = .ok i ↔ decode w = .ok i := by
  cases i with
  | extract hdr =>
    simp (disch := decide) only [decode_eq_extract_iff, opField, hdrField, Instr.usedBits, extractLsb'_and_of_allOnes]
  | validate prev cur =>
    simp (disch := decide) only [decode_eq_validate_iff, opField, prevField, curField, Instr.usedBits,
      extractLsb'_and_of_allOnes]
  | parse p n =>
    simp (disch := decide) only [decode_eq_parse_iff, opField, bufPresentField, bufLenField, Instr.usedBits,
      extractLsb'_and_of_allOnes]

/-- Settles O6: the used bits of a word are the encoding of what it decodes to, and alone decide what that is. -/
theorem ignoredBitsDoNotMatter : Obligations.IgnoredBitsDoNotMatter := by
  intro w i
  refine ⟨and_usedBits_of_decode, fun h => ?_⟩
  rw [← decode_and_usedBits, h, decode_encode]

/-! ## The words of the assembler's lines -/

/-- Fields moved to their places do not overlap, so putting them together adds them. -/
theorem or_toNat_of_disjoint {a b : ReqWord} (k : Nat) (ha : 2 ^ k ∣ a.toNat) (hb : b.toNat < 2 ^ k) :
    (a ||| b).toNat = a.toNat + b.toNat := by
  obtain ⟨c, hc⟩ := ha
  rw [BitVec.toNat_or, hc, Nat.two_pow_add_eq_or_of_lt hb]

/-- An operand moved to a place where it fits is multiplied by a power of two. -/
theorem toNat_setWidth_shiftLeft {n : Nat} (v : BitVec n) (k : Nat) (h : n + k ≤ 32) :
    (v.setWidth 32 <<< k).toNat = v.toNat * 2 ^ k := by
  have hv : v.toNat * 2 ^ k < 2 ^ 32 := calc
    v.toNat * 2 ^ k < 2 ^ n * 2 ^ k := Nat.mul_lt_mul_of_pos_right v.isLt (Nat.two_pow_pos k)
    _ = 2 ^ (n + k) := (Nat.pow_add 2 n k).symm
    _ ≤ 2 ^ 32 := Nat.pow_le_pow_right (by decide) h
  rw [BitVec.toNat_shiftLeft, BitVec.toNat_setWidth_of_le (by omega), Nat.shiftLeft_eq, Nat.mod_eq_of_lt hv]

theorem encode_extract_toNat (hdr : Byte) : (encode (.extract hdr)).toNat = hdr.toNat := by
  have hhdr : (hdr.setWidth 32).toNat = hdr.toNat := BitVec.toNat_setWidth_of_le (by decide)
  rw [encode, or_toNat_of_disjoint 8 (by simp) (by have := hdr.isLt; omega), hhdr, BitVec.toNat_ofNat]
  omega

theorem encode_validate_toNat (prev cur : Byte) :
    (encode (.validate prev cur)).toNat = 0x40000000 + prev.toNat * 2 ^ 8 + cur.toNat := by
  have hprev := toNat_setWidth_shiftLeft prev 8 (by decide)
  have hcur : (cur.setWidth 32).toNat = cur.toNat := BitVec.toNat_setWidth_of_le (by decide)
  have hprevLt := prev.isLt
  have hcurLt := cur.isLt
  have hhigh : (0x40000000#32 ||| prev.setWidth 32 <<< 8).toNat = 0x40000000 + prev.toNat * 2 ^ 8 := by
    rw [or_toNat_of_disjoint 30 (by decide) (by omega), hprev, BitVec.toNat_ofNat]
  rw [encode, or_toNat_of_disjoint 8 (by omega) (by omega), hhigh, hcur]

theorem encode_parse_toNat (p : BitVec 1) (n : Len) :
    (encode (.parse p n)).toNat = 0x80000000 + p.toNat * 2 ^ 16 + n.toNat := by
  have hp := toNat_setWidth_shiftLeft p 16 (by decide)
  have hn : (n.setWidth 32).toNat = n.toNat := BitVec.toNat_setWidth_of_le (by decide)
  have hpLt := p.isLt
  have hnLt := n.isLt
  have hhigh : (0x80000000#32 ||| p.setWidth 32 <<< 16).toNat = 0x80000000 + p.toNat * 2 ^ 16 := by
    rw [or_toNat_of_disjoint 31 (by decide) (by omega), hp, BitVec.toNat_ofNat]
  rw [encode, or_toNat_of_disjoint 16 (by omega) (by omega), hhigh, hn]

theorem instr?_of_not_wellFormed {l : AsmLine} (h : l.wellFormed = false) : l.instr? = none := by
  simp [AsmLine.instr?, h]

/-- Settles O7: the numeral of a line in its range is the number in its field. -/
theorem assemblerWordsAndRanges : Obligations.AssemblerWordsAndRanges := by
  refine ⟨fun hdr => ⟨fun h => ?_, fun h => ?_⟩, fun prev cur => ⟨fun h => ?_, fun h => ?_⟩,
    fun p n => ⟨fun h => ?_, fun h => ?_⟩⟩
  · refine ⟨.extract (BitVec.ofNat 8 hdr), by simp [AsmLine.instr?, AsmLine.wellFormed, h], ?_⟩
    rw [encode_extract_toNat, BitVec.toNat_ofNat, Nat.mod_eq_of_lt (by omega)]
  · exact instr?_of_not_wellFormed (by simpa [AsmLine.wellFormed] using h)
  · refine ⟨.validate (BitVec.ofNat 8 prev) (BitVec.ofNat 8 cur), by simp [AsmLine.instr?, AsmLine.wellFormed, h], ?_⟩
    rw [encode_validate_toNat, BitVec.toNat_ofNat, BitVec.toNat_ofNat, Nat.mod_eq_of_lt (by omega),
      Nat.mod_eq_of_lt (by omega)]
  · exact instr?_of_not_wellFormed (by simp [AsmLine.wellFormed]; omega)
  · refine ⟨.parse (BitVec.ofNat 1 p) (BitVec.ofNat 16 n), by simp [AsmLine.instr?, AsmLine.wellFormed, h], ?_⟩
    rw [encode_parse_toNat, BitVec.toNat_ofNat, BitVec.toNat_ofNat, Nat.mod_eq_of_lt (by omega),
      Nat.mod_eq_of_lt (by omega)]
  · exact instr?_of_not_wellFormed (by simp [AsmLine.wellFormed]; omega)

end Sys2Proof

/-! ## The transaction -/

namespace Sys2Proof.Machine

theorem step_of_no_requests {s : State} (h : s.requests = []) : step s = .refused .noRequest := by
  simp only [step, fetch, h]

/-- What BUF holds once a request is presented: the bytes beside it that fit, else what stood there. -/
theorem present_buf_read {s : State} (q : Request) (rest : List Request) (hw : s.buf.wf) (k : Nat) :
    (s.present q rest).buf.read k =
      if k < (q.bufBytes.getD []).length ∧ k ≤ s.cfg.cap then (q.bufBytes.getD []).getD k 0x00#8 else s.buf.read k := by
  obtain ⟨w, _ | bytes⟩ := q
  · rw [State.present_buf, bufFor_none]; simp
  · rw [State.present_buf, bufFor_some, fillBuf_read hw]; simp

/-- Settles O8: the decoded instruction runs in the state with its request presented. -/
theorem stepRunsThePresentedRequest : Obligations.StepRunsThePresentedRequest := by
  intro s q rest i hq hd
  exact ⟨step_of_decode_ok hq hd, State.present_cfg s q rest, State.present_requests s q rest,
    State.present_responses s q rest, fun hw k => present_buf_read q rest hw k⟩

/-- Settles O9: a step that completes took one request and gave one response in the state that presents it. -/
theorem oneResponsePerRequest : Obligations.OneResponsePerRequest := by
  refine ⟨fun s t h => ?_, fun s h => step_of_no_requests h⟩
  obtain ⟨q, rest, i, r, hq, -, -, rfl⟩ := step_next_inv h
  exact ⟨q, rest, r, hq, rfl, rfl, rfl⟩

/-- Settles O10: taking a request ends in a refusal or in an instruction, and every instruction answers. -/
theorem noStepFaults : Obligations.NoStepFaults := by
  intro s f h
  obtain ⟨-, hf⟩ | ⟨q, rest, -, -, hf⟩ | ⟨q, rest, i, hq, hd, -⟩ := fetch_cases s
  · simp [step, hf] at h
  · simp [step, hf] at h
  · obtain ⟨r, hexec⟩ := exec_responds i (s.present q rest)
    rw [step_of_decode_ok hq hd, hexec] at h
    cases h

/-- Settles O11: giving a response is all an instruction does. -/
theorem operationsOnlyGiveAResponse : Obligations.OperationsOnlyGiveAResponse := by
  intro i s
  obtain ⟨r, hexec⟩ := exec_responds i s
  exact ⟨_, hexec, State.respond_cfg s r, State.respond_requests s r, fun _ => by rw [State.respond_buf], r,
    State.respond_responses s r⟩

/-- Settles O33: the reset state, field by field. -/
theorem resetLeavesNothingPending : Obligations.ResetLeavesNothingPending := by
  intro cfg
  exact ⟨State.resetWith_cfg cfg, State.resetWith_requests cfg, State.resetWith_responses cfg,
    fun a => by rw [State.resetWith_buf, Memory.read_nil], step_of_no_requests (State.resetWith_requests cfg)⟩

/-! ## EXTRACT and VALIDATE, as arithmetic modulo 32 -/

theorem seqField_eq_iff (v : Byte) (q : SeqNum) : seqField v = q ↔ v.toNat % 32 = q.toNat := by
  rw [← BitVec.toNat_inj, seqField_toNat]

theorem seqField_congr {v v' : Byte} (h : v.toNat % 32 = v'.toNat % 32) : seqField v = seqField v' := by
  rw [seqField_eq_iff, seqField_toNat, h]

theorem seqNum_setWidth_toNat (q : SeqNum) : (q.setWidth 8).toNat = q.toNat :=
  BitVec.toNat_setWidth_of_le (by decide)

/-- The sequence field of a sequence number widened with zeros is that number. -/
@[simp] theorem seqField_setWidth (q : SeqNum) : seqField (q.setWidth 8) = q := by
  rw [seqField_eq_iff, seqNum_setWidth_toNat, Nat.mod_eq_of_lt q.isLt]

theorem exec_extract_eq_iff (hdr : Byte) (q : SeqNum) (s : State) :
    exec (.extract hdr) s = .next (s.respond (.extract q)) ↔ seqField hdr = q := by
  rw [exec_extract]
  refine ⟨fun h => ?_, fun h => by rw [h]⟩
  exact Response.extract.inj (State.respond_inj (Host.Outcome.next.inj h))

theorem exec_validate_eq_iff (prev cur : Byte) (v : BitVec 1) (s : State) :
    exec (.validate prev cur) s = .next (s.respond (.validate v)) ↔
      validBit (seqField cur == nextSeq (seqField prev)) = v := by
  rw [exec_validate]
  refine ⟨fun h => ?_, fun h => by rw [h]⟩
  exact Response.validate.inj (State.respond_inj (Host.Outcome.next.inj h))

/-- Where VALIDATE answers 1 (rules R68, R69). -/
theorem exec_validate_eq_one_iff (prev cur : Byte) (s : State) :
    exec (.validate prev cur) s = .next (s.respond (.validate 1#1)) ↔
      cur.toNat % 32 = (prev.toNat % 32 + 1) % 32 := by
  rw [exec_validate_eq_iff, validBit_eq_one_iff, beq_iff_eq, seqField_eq_nextSeq_iff]

/-- Where VALIDATE answers 0 (rules R68, R69). -/
theorem exec_validate_eq_zero_iff (prev cur : Byte) (s : State) :
    exec (.validate prev cur) s = .next (s.respond (.validate 0#1)) ↔
      cur.toNat % 32 ≠ (prev.toNat % 32 + 1) % 32 := by
  rw [exec_validate_eq_iff, validBit_eq_zero_iff, beq_eq_false_iff_ne, ne_eq, seqField_eq_nextSeq_iff]

/-- Settles O13: the result is the remainder modulo 32, and a byte has eight quotients. -/
theorem lawsOfExtract : Obligations.LawsOfExtract := by
  intro hdr v s
  refine ⟨?_, ?_, (exec_extract_eq_iff _ v s).2 (seqField_setWidth v)⟩
  · rw [exec_extract_eq_iff, seqField_eq_iff, BitVec.toNat_ofNat]
    omega
  · rw [exec_extract_eq_iff, seqField_eq_iff]
    have hhdr := hdr.isLt
    have hv := v.isLt
    refine ⟨fun h => ⟨hdr.toNat / 32, by omega, by omega⟩, ?_⟩
    rintro ⟨k, -, hk⟩
    omega

/-- Settles O15: every law is a law of the successor modulo 32. -/
theorem lawsOfValidate : Obligations.LawsOfValidate := by
  intro s
  simp only [exec_validate_eq_one_iff, exec_validate_eq_zero_iff]
  refine ⟨fun a => ?noSelf, fun a => ?successor, fun a b ha hb hne => ?nothingElse, fun a b c hb hc => ?uniqueCur,
    fun a b c ha hb => ?uniquePrev, fun a b hab => ?asymmetric⟩
  case successor => rw [BitVec.toNat_ofNat]; omega
  all_goals omega

/-- Settles O16: EXTRACT's results, widened with zeros, have the sequence fields of the raw bytes. -/
theorem validateOfRawHeaderBytes : Obligations.ValidateOfRawHeaderBytes := by
  intro h1 h2 s
  refine ⟨_, _, exec_extract h1 s, exec_extract h2 s, ?_⟩
  rw [exec_validate, exec_validate, seqField_setWidth, seqField_setWidth]

/-! ## What PARSE's response depends on -/

/-- The success path depends on the sequence field of the header byte and on the payload, not on what PAY held. -/
theorem parseFrame_eq_of_same_fields {cfg : Config} {buf buf' pay pay' : Memory} {bufLen : Len}
    (hlen : payloadBytes bufLen ≤ cfg.cap) (hw : pay.wf) (hr : pay.within cfg.cap) (hw' : pay'.wf)
    (hr' : pay'.within cfg.cap) (hseq : seqField (buf'.read 0) = seqField (buf.read 0))
    (hpayload : ∀ k, 1 ≤ k → buf'.read k = buf.read k) :
    parseFrame cfg buf' pay' bufLen = parseFrame cfg buf pay bufLen := by
  obtain ⟨p, hframe, hpw, -, hread⟩ := parseFrame_spec (buf := buf) hlen hw hr
  obtain ⟨p', hframe', hpw', -, hread'⟩ := parseFrame_spec (buf := buf') hlen hw' hr'
  have hpay : p' = p := Memory.ext_read hpw' hpw fun k => by
    rw [hread, hread', hpayload (k + 1) (by omega)]
  rw [hframe, hframe', hpay, hseq]

/-- The same of the whole unit: its errors read neither BUF nor PAY. -/
theorem parseUnit_eq_of_same_fields {cfg : Config} {buf buf' pay pay' : Memory} (bufPresent : BitVec 1) (bufLen : Len)
    (hw : pay.wf) (hr : pay.within cfg.cap) (hw' : pay'.wf) (hr' : pay'.within cfg.cap)
    (hseq : seqField (buf'.read 0) = seqField (buf.read 0)) (hpayload : ∀ k, 1 ≤ k → buf'.read k = buf.read k) :
    parseUnit cfg buf' pay' bufPresent bufLen = parseUnit cfg buf pay bufPresent bufLen := by
  by_cases h : bufPresent = 0#1 ∨ bufLen = 0#16
  · rw [parseUnit_of_absent_or_empty h hw hr, parseUnit_of_absent_or_empty h hw' hr']
  · by_cases hlen : payloadBytes bufLen ≤ cfg.cap
    · rw [parseUnit_of_frame h hlen, parseUnit_of_frame h hlen,
        parseFrame_eq_of_same_fields hlen hw hr hw' hr' hseq hpayload]
    · rw [parseUnit_of_oversized h (by omega) hw hr, parseUnit_of_oversized h (by omega) hw' hr']

/-- Settles O24: EXTRACT and VALIDATE read the sequence field of an operand, PARSE that of the header byte. -/
theorem headerFlagBitsAreIgnored : Obligations.HeaderFlagBitsAreIgnored := by
  refine ⟨fun h h' s hh => ?_, fun h h' g g' s hh hg => ?_, fun bufPresent bufLen s s' hcfg hhdr hpayload => ?_⟩
  · rw [exec_extract, exec_extract, seqField_congr hh]
  · rw [exec_validate, exec_validate, seqField_congr hh, seqField_congr hg]
  · obtain ⟨r, hr⟩ := parseUnit_answers s.cfg s.buf bufPresent bufLen freshPay_wf (freshPay_within _)
    have hr' : parseUnit s'.cfg s'.buf freshPay bufPresent bufLen = .ok r := by
      rw [hcfg, parseUnit_eq_of_same_fields bufPresent bufLen freshPay_wf (freshPay_within _) freshPay_wf
        (freshPay_within _) (seqField_congr hhdr) hpayload, hr]
    exact ⟨r, exec_parse_of_parseUnit hr, exec_parse_of_parseUnit hr'⟩

/-- Settles O27: the unit's result does not depend on PAY, and a step puts its response after those given before. -/
theorem eachParseBuildsItsRecordFresh : Obligations.EachParseBuildsItsRecordFresh := by
  refine ⟨fun cfg buf pay pay' bufPresent bufLen hw hr hw' hr' => ?_, fun s t h => ?_⟩
  · exact parseUnit_eq_of_same_fields bufPresent bufLen hw' hr' hw hr rfl fun _ _ => rfl
  · obtain ⟨q, rest, i, r, -, -, -, rfl⟩ := step_next_inv h
    exact ⟨[r], rfl⟩

/-- PARSE's response is always a record. -/
theorem exec_parse_answers (bufPresent : BitVec 1) (bufLen : Len) (s : State) :
    ∃ r : ParseResponse, exec (.parse bufPresent bufLen) s = .next (s.respond (.parse r)) := by
  obtain ⟨r, hr⟩ := parseUnit_answers s.cfg s.buf bufPresent bufLen freshPay_wf (freshPay_within _)
  exact ⟨r, exec_parse_of_parseUnit hr⟩

/-- Settles O23: two states of one capacity with the same frame in BUF give one response. -/
theorem parseDependsOnlyOnTheFrame : Obligations.ParseDependsOnlyOnTheFrame := by
  intro bufPresent bufLen s s' hcfg hsame
  obtain ⟨r, hr, hr'⟩ := exec_parse_same_response (bufPresent := bufPresent) hcfg fun _ _ => hsame
  obtain ⟨record, hrecord⟩ := exec_parse_answers bufPresent bufLen s
  obtain rfl : r = .parse record := State.respond_inj (Host.Outcome.next.inj (hr.symm.trans hrecord))
  exact ⟨record, hr, hr'⟩

end Sys2Proof.Machine

/-! ## PARSE at the bounds of the length -/

namespace Sys2Proof.Machine

theorem toNat_ne_zero_of_ne {n : Len} (h : n ≠ 0#16) : n.toNat ≠ 0 := fun h0 => h (BitVec.eq_of_toNat_eq h0)

/-- The payload length in 16 bits is the payload length, where there is a header (rule R81). -/
theorem bufLen_sub_one_toNat {bufLen : Len} (hne : bufLen ≠ 0#16) : (bufLen - 1#16).toNat = payloadBytes bufLen := by
  have hpos := toNat_ne_zero_of_ne hne
  exact BitVec.toNat_sub_of_le (BitVec.le_def.2 (Nat.one_le_iff_ne_zero.2 hpos))

/-- Settles O19: the cases of the unit are the conditions of the table. -/
theorem statusTable : Obligations.StatusTable := by
  intro bufPresent bufLen s
  obtain rfl | rfl := BitVec.eq_zero_or_eq_one bufPresent
  · exact ⟨_, exec_parse_of_absent_or_empty s (.inl rfl), by simp [ParseError.code]⟩
  · by_cases hne : bufLen = 0#16
    · subst hne
      exact ⟨_, exec_parse_of_absent_or_empty s (.inr rfl), by simp [ParseError.code]⟩
    · have h := not_absent_or_empty_of_ne_zero hne
      have hpos := toNat_ne_zero_of_ne hne
      by_cases hlen : payloadBytes bufLen ≤ s.cfg.cap
      · obtain ⟨pay, hexec, -⟩ := exec_parse_of_frame h hlen
        rw [payloadBytes] at hlen
        exact ⟨_, hexec, by simp [statusSuccess]; omega⟩
      · refine ⟨_, exec_parse_of_oversized h (by omega), ?_⟩
        rw [payloadBytes] at hlen
        simp [ParseError.code]; omega

/-- A frame of the header byte alone: nothing is copied and all of PAY is zeroed (rule R82). -/
theorem exec_parse_header_only (s : State) : exec (.parse 1#1 1#16) s = .next (s.respond (.parse
    { status := statusSuccess, pktSeq := seqField (s.buf.read 0), pktLen := 0#16, pay := [] })) := by
  have hempty : payloadBytes 1#16 = 0 := rfl
  have hlen : payloadBytes 1#16 ≤ s.cfg.cap := hempty ▸ Nat.zero_le _
  obtain ⟨pay, hframe, hw, -, hread⟩ := parseFrame_spec (buf := s.buf) hlen freshPay_wf (freshPay_within _)
  obtain rfl : pay = [] := Memory.ext_read hw Memory.wf_nil fun k => by
    rw [hread, hempty, if_neg (Nat.not_lt_zero k), Memory.read_nil]
  exact exec_parse_of_parseUnit
    ((parseUnit_of_frame (not_absent_or_empty_of_ne_zero (by decide)) hlen).trans hframe)

/-- Settles O25: both responses carry an empty record, whose sequence is the header's in the one and 0 in the other. -/
theorem headerOnlyFrameSucceeds : Obligations.HeaderOnlyFrameSucceeds := by
  intro s
  refine ⟨_, _, exec_parse_header_only s, rfl, seqField_toNat _, rfl, Memory.read_nil,
    exec_parse_of_absent_or_empty s (.inr rfl), rfl, fun hzero => ?_⟩
  have hseq : seqField (s.buf.read 0) = 0#5 := (seqField_eq_iff _ _).2 hzero
  rw [hseq]; rfl

/-- The bounds check in 16-bit arithmetic is the unbounded one, where there is a header (rule R81). -/
theorem ult_sub_one_iff {bufLen : Len} (cfg : Config) (hne : bufLen ≠ 0#16) :
    (BitVec.ofNat 16 cfg.cap).ult (bufLen - 1#16) = true ↔ payloadBytes bufLen > cfg.cap := by
  have hcap := cfg.cap_le
  rw [BitVec.ult_iff_lt, BitVec.lt_def, bufLen_sub_one_toNat hne, BitVec.toNat_ofNat, Nat.mod_eq_of_lt (by omega)]

/-- Settles O26: the unit's capacity test, taken in 16 bits. -/
theorem boundsCheckInSixteenBits : Obligations.BoundsCheckInSixteenBits := by
  intro bufLen s hne
  simp only [ult_sub_one_iff s.cfg hne]
  by_cases hlen : payloadBytes bufLen > s.cfg.cap
  · simp only [if_pos hlen]
    exact ⟨_, exec_parse_of_oversized (not_absent_or_empty_of_ne_zero hne) hlen, rfl, rfl⟩
  · simp only [if_neg hlen]
    obtain ⟨pay, hexec, -⟩ := exec_parse_of_frame (not_absent_or_empty_of_ne_zero hne) (Nat.le_of_not_lt hlen)
    exact ⟨_, hexec, rfl, rfl⟩

/-- Settles O28: both results are the sequence field of byte 0. -/
theorem extractAgreesWithParse : Obligations.ExtractAgreesWithParse := by
  intro bufLen s hmin hmax
  obtain ⟨r, hexec, -, hseq, -⟩ := parseCopiesTheFrame bufLen s hmin hmax
  exact ⟨r, hexec, (exec_extract_eq_iff _ _ s).2 ((seqField_eq_iff _ _).2 hseq.symm)⟩

/-- Settles O29: the payload is copied from BUF as it stands once the request is presented. -/
theorem unfilledBytesAreCopiedAsTheyStand : Obligations.UnfilledBytesAreCopiedAsTheyStand := by
  intro s rest bytes bufLen hw hmin hmax hq
  obtain ⟨r, hexec, -, -, -, hcopied, -⟩ :=
    parseCopiesTheFrame bufLen (s.present ⟨encode (.parse 1#1 bufLen), some bytes⟩ rest) hmin hmax
  refine ⟨_, r, (step_of_decode_ok hq (decode_encode_parse _ _)).trans hexec, rfl, fun j hj => ?_⟩
  have hcap : j + 1 ≤ s.cfg.cap := by omega
  rw [hcopied j hj, present_buf_read _ rest hw]
  simp only [hcap, and_true, Option.getD_some]

/-! ## The codes of the errors -/

theorem ParseError.code_ne_statusSuccess (e : ParseError) : e.code ≠ statusSuccess := by
  cases e <;> decide

theorem ParseError.code_injective : Function.Injective ParseError.code := by
  intro e e'
  cases e <;> cases e' <;> simp [ParseError.code]

/-- Settles O30: the codes, kind by kind. -/
theorem errorCodesAreDistinctAndNonzero : Obligations.ErrorCodesAreDistinctAndNonzero :=
  ⟨ParseError.code_ne_statusSuccess, fun _ _ h => ParseError.code_injective h⟩

/-! ## The invariant -/

/-- Every error the unit reports has a sound response: TooShort is not one of them (rules R74, R78). -/
theorem errorResponse_sound (cfg : Config) {e : ParseError} (h : e ≠ .tooShort) :
    ParseResponse.Sound cfg { status := e.code, pktSeq := 0#5, pktLen := 0#16, pay := [] } where
  payWf := Memory.wf_nil
  payWithin := by simp [Memory.within]
  lenWithin := Nat.zero_le _
  zeroBeyond := fun j _ => Memory.read_nil j
  neverTooShort := ParseError.code_injective.ne h
  errorZero := fun _ => ⟨rfl, rfl⟩

theorem parseFrame_sound {cfg : Config} {buf pay : Memory} {bufLen : Len} {r : ParseResponse} (hne : bufLen ≠ 0#16)
    (hlen : payloadBytes bufLen ≤ cfg.cap) (hw : pay.wf) (hr : pay.within cfg.cap)
    (h : parseFrame cfg buf pay bufLen = .ok r) : r.Sound cfg := by
  obtain ⟨pay', hframe, hw', hr', hread⟩ := parseFrame_spec (buf := buf) hlen hw hr
  obtain rfl := Except.ok.inj (h.symm.trans hframe)
  have hpktLen := bufLen_sub_one_toNat hne
  exact
    { payWf := hw'
      payWithin := hr'
      lenWithin := by rw [hpktLen]; exact hlen
      zeroBeyond := fun j hj => by rw [hpktLen] at hj; rw [hread, if_neg (by omega)]
      neverTooShort := (ParseError.code_ne_statusSuccess .tooShort).symm
      errorZero := fun hstatus => absurd rfl hstatus }

/-- Whatever the unit answers is sound. -/
theorem parseUnit_sound {cfg : Config} {buf pay : Memory} {bufPresent : BitVec 1} {bufLen : Len} {r : ParseResponse}
    (hw : pay.wf) (hr : pay.within cfg.cap) (hunit : parseUnit cfg buf pay bufPresent bufLen = .ok r) :
    r.Sound cfg := by
  by_cases h : bufPresent = 0#1 ∨ bufLen = 0#16
  · obtain rfl := Except.ok.inj (hunit.symm.trans (parseUnit_of_absent_or_empty h hw hr))
    exact errorResponse_sound cfg (by decide)
  · by_cases hlen : payloadBytes bufLen ≤ cfg.cap
    · exact parseFrame_sound (not_or.1 h).2 hlen hw hr ((parseUnit_of_frame h hlen).symm.trans hunit)
    · obtain rfl := Except.ok.inj (hunit.symm.trans (parseUnit_of_oversized h (by omega) hw hr))
      exact errorResponse_sound cfg (by decide)

/-- Whatever an instruction answers is sound: only PARSE's response holds a record. -/
theorem exec_response_sound {i : Instr} {s : State} {r : Response} (h : exec i s = .next (s.respond r)) :
    r.Sound s.cfg := by
  cases i with
  | extract hdr =>
    obtain rfl := State.respond_inj (Host.Outcome.next.inj ((exec_extract hdr s).symm.trans h))
    trivial
  | validate prev cur =>
    obtain rfl := State.respond_inj (Host.Outcome.next.inj ((exec_validate prev cur s).symm.trans h))
    trivial
  | parse bufPresent bufLen =>
    obtain ⟨record, hrecord⟩ := parseUnit_answers s.cfg s.buf bufPresent bufLen freshPay_wf (freshPay_within _)
    obtain rfl := State.respond_inj (Host.Outcome.next.inj ((exec_parse_of_parseUnit hrecord).symm.trans h))
    exact parseUnit_sound freshPay_wf (freshPay_within _) hrecord

theorem State.Inv.present {s : State} (h : s.Inv) (q : Request) (rest : List Request) : (s.present q rest).Inv := by
  obtain ⟨hw, hr⟩ := bufFor_wf h.bufWf h.bufWithin q.bufBytes
  exact ⟨hw, hr, h.sound⟩

theorem State.Inv.respond {s : State} {r : Response} (h : s.Inv) (hr : r.Sound s.cfg) : (s.respond r).Inv := by
  refine ⟨h.bufWf, h.bufWithin, fun r' hr' => ?_⟩
  rw [State.respond_responses, List.mem_append, List.mem_singleton] at hr'
  obtain hold | rfl := hr'
  · exact h.sound r' hold
  · exact hr

/-- Settles O31: presenting a request keeps BUF canonical, and the response an instruction gives is sound. -/
theorem everyStepKeepsTheInvariant : Obligations.EveryStepKeepsTheInvariant := by
  intro s t hs h
  obtain ⟨q, rest, i, r, -, -, hexec, rfl⟩ := step_next_inv h
  exact (hs.present q rest).respond (exec_response_sound hexec)

theorem State.resetWith_inv (cfg : Config) : (State.resetWith cfg).Inv :=
  ⟨Memory.wf_nil, by simp [Memory.within], by simp⟩

/-- Settles O32: after reset BUF lists nothing and no response has been given. -/
theorem resetMeetsTheInvariant : Obligations.ResetMeetsTheInvariant :=
  ⟨State.resetWith_inv, State.resetWith_inv _⟩

/-! ## Runs of proper requests -/

theorem fillBuf_keeps_wf {cfg : Config} {bytes : List Byte} {j : Nat} {buf : Memory} (hw : buf.wf) :
    (fillBuf cfg bytes j buf).wf := by
  induction bytes generalizing j buf with
  | nil => exact hw
  | cons b bs ih =>
    rw [fillBuf]
    split
    · exact ih (Memory.wf_write hw _ _)
    · exact hw

/-- Presenting a request keeps BUF canonical, whatever indices it lists. -/
theorem present_keeps_buf_wf {s : State} (q : Request) (rest : List Request) (hw : s.buf.wf) :
    (s.present q rest).buf.wf := by
  obtain ⟨w, _ | bytes⟩ := q
  · exact hw
  · exact fillBuf_keeps_wf hw

theorem run_succ_of_step {M : Host.Core} {s s' : M.State} (k : Nat) (h : M.step s = .next s') :
    M.run (k + 1) s = M.run k s' := by
  rw [Host.Core.run, h]

/-- Settles O36, by induction on the requests: each step answers the first as it is answered alone after reset, and the
rest stand in a state of that capacity with a canonical BUF. -/
theorem runsAnswerEachRequestAlone : Obligations.RunsAnswerEachRequestAlone := by
  intro qs
  induction qs with
  | nil => exact fun s _ hq _ => ⟨s, rfl, hq, by simp⟩
  | cons q rest ih =>
    intro s hw hq hproper
    obtain ⟨hp, hrest⟩ := List.forall_mem_cons.1 hproper
    obtain ⟨r, hstep, hsolo⟩ := step_answers_soloResponse hq hw hp
    obtain ⟨t, hrun, hnone, hresponses⟩ :=
      ih ((s.present q rest).respond r) (present_keeps_buf_wf q rest hw) rfl hrest
    refine ⟨t, (run_succ_of_step (M := Sys2Proof.core) _ hstep).trans hrun, hnone, ?_⟩
    rw [hresponses]
    simp [hsolo]

/-- The response of a proper request on its own; the default is never taken (`soloResponse_eq_some`). -/
def properResponse (cfg : Config) (q : Request) : Response := (soloResponse cfg q).getD (.extract 0#5)

theorem soloResponse_eq_some {cfg : Config} {q : Request} (hp : q.Proper cfg) :
    soloResponse cfg q = some (properResponse cfg q) := by
  obtain ⟨r, -, hsolo⟩ :=
    step_answers_soloResponse (s := { State.resetWith cfg with requests := [q] }) rfl Memory.wf_nil hp
  rw [properResponse, show soloResponse cfg q = some r from hsolo, Option.getD_some]

/-- The responses of a run, as a function of the requests alone. -/
theorem run_gives_properResponses {qs : List Request} {s : State} (hw : s.buf.wf) (hq : s.requests = qs)
    (hproper : ∀ q, q ∈ qs → q.Proper s.cfg) :
    ∃ t : State, Sys2Proof.core.run qs.length s = .next t ∧
      t.responses = s.responses ++ qs.map (properResponse s.cfg) := by
  obtain ⟨t, hrun, -, hresponses⟩ := runsAnswerEachRequestAlone qs s hw hq hproper
  refine ⟨t, hrun, (Option.some_injective _).list_map ?_⟩
  have hsolo : qs.map (soloResponse s.cfg) = qs.map fun q => some (properResponse s.cfg q) :=
    List.map_congr_left fun q hmem => soloResponse_eq_some (hproper q hmem)
  rw [hresponses, hsolo, List.map_append, List.map_map]
  rfl

/-- Settles O37: in both orders each request has the response it has on its own. -/
theorem orderOfRequestsDoesNotMatter : Obligations.OrderOfRequestsDoesNotMatter := by
  intro qs qs' s s' hperm hcfg hw hw' hq hq' hproper
  obtain ⟨t, hrun, hresponses⟩ := run_gives_properResponses hw hq hproper
  obtain ⟨t', hrun', hresponses'⟩ :=
    run_gives_properResponses hw' hq' fun q hmem => hcfg ▸ hproper q (hperm.mem_iff.2 hmem)
  exact ⟨t, t', properResponse s.cfg, hrun, hrun', hresponses, hcfg ▸ hresponses'⟩

end Sys2Proof.Machine
